-- ==== Sys2Proof/Word.lean ====
section
/-! DEFINITION. The two word types of the block: the byte and the identifier (00_scope.md R10). -/

namespace Sys2Proof

/-- A byte: 8 bits, values 0 to 255 (R10). -/
abbrev Byte := BitVec 8

/-- A CAN identifier as it is stored: 32 bits, of which the low 29 are meaningful (R10, R77). -/
abbrev Ident := BitVec 32

end Sys2Proof
end

