-- ==== Sys2Proof/Config.lean ====
section
/-! DEFINITION. What is fixed when the block is built (00_scope.md R7 to R9), and the free values: the
contents the spec leaves without a value. -/

namespace Sys2Proof

/-- `DECODE_ID_POLICY`: what the decoder does with a reassembled identifier that has any of bits 31..29
set (R9, R132). -/
inductive IdPolicy where
  | pass
  | mask
  | drop
  deriving DecidableEq, Repr

/-- The build parameters: the four protocol constants (R7) and the identifier policy (R9). -/
structure Config where
  frameStart    : Byte
  escape        : Byte
  escapedStart  : Byte
  escapedEscape : Byte
  idPolicy      : IdPolicy
  deriving DecidableEq, Repr

namespace Config

/-- The spec's default assignment (R7, R9; general knowledge, not in the source: log 2). -/
def standard : Config where
  frameStart    := 0xFF
  escape        := 0xFE
  escapedStart  := 0xFE
  escapedEscape := 0xFD
  idPolicy      := .pass

/-- K-a of R8: neither marker lies in the range of a LENGTH byte. -/
abbrev MarkersOutsideLengths (c : Config) : Prop :=
  ¬(4 ≤ c.frameStart.toNat ∧ c.frameStart.toNat ≤ 12) ∧ ¬(4 ≤ c.escape.toNat ∧ c.escape.toNat ≤ 12)

/-- K-b of R8: `0xFF` is a marker. -/
abbrev AllOnesIsMarker (c : Config) : Prop := c.frameStart = 0xFF ∨ c.escape = 0xFF

/-- K-c of R8: the markers differ. -/
abbrev MarkersDiffer (c : Config) : Prop := c.frameStart ≠ c.escape

/-- K-d of R8: the substitutes differ. -/
abbrev SubstitutesDiffer (c : Config) : Prop := c.escapedStart ≠ c.escapedEscape

/-- K-e of R8: no substitute is the frame-start marker. -/
abbrev SubstitutesNotStart (c : Config) : Prop :=
  c.escapedStart ≠ c.frameStart ∧ c.escapedEscape ≠ c.frameStart

/-- A legal assignment meets every constraint of R8. -/
abbrev Legal (c : Config) : Prop :=
  c.MarkersOutsideLengths ∧ c.AllOnesIsMarker ∧ c.MarkersDiffer ∧ c.SubstitutesDiffer ∧
    c.SubstitutesNotStart

/-- FREE VALUE: the contents of buffer cell `i` at or above `len(buf)` (10_state.md R22,
93_implementation_defined.md I9; log 12). -/
opaque deadCell : Nat → Byte

/-- FREE VALUE: the payload byte `i` of an ENCODE request whose lane the port does not have, `i` from 8
to 14 (30_encoding.md R69; log 15). -/
opaque deadLane : Nat → Byte

/-- FREE VALUE: whether RESET comes before the FEED in the `n`-th port step that raises both; the spec
gives the two no order there (30_encoding.md R74; log 13). -/
opaque resetFirst : Nat → Bool

end Config

end Sys2Proof
end

