-- ==== Sys2Proof/Machine/Operands.lean ====
section
/-! DEFINITION. Operand fields: the LENGTH byte, the identifier's byte order and the byte lanes of the
ports. -/

namespace Sys2Proof.Machine

/-- The range of a LENGTH byte, `4 <= b <= 12` (00_scope.md R10, 41_decoder.md R123). -/
abbrev IsLength (b : Byte) : Prop := 4 ≤ b.toNat ∧ b.toNat ≤ 12

/-- `LENGTH = len(payload) + 4`, one unsigned byte (30_encoding.md R76). -/
def lengthByte (n : Nat) : Byte := BitVec.ofNat 8 (n + 4)

/-- `id_le32`: the identifier's four bytes in wire order, least significant first (20_memory.md R42). -/
def idLe32 (id : Ident) : List Byte :=
  [id.extractLsb' 0 8, id.extractLsb' 8 8, id.extractLsb' 16 8, id.extractLsb' 24 8]

/-- `raw_id`: four bytes joined little-endian by shift and OR (20_memory.md R43). -/
def rawId (b0 b1 b2 b3 : Byte) : Ident :=
  b0.setWidth 32 ||| (b1.setWidth 32 <<< 8) ||| (b2.setWidth 32 <<< 16) ||| (b3.setWidth 32 <<< 24)

/-- Bits 31..29 of an identifier, zero in a valid one (R77, R102). -/
def topBits (id : Ident) : BitVec 3 := id.extractLsb' 29 3

/-- Cell `i` of a buffer whose contents are `bs`: a cell at or above the count holds no architectural
value, so it reads as a free value (10_state.md R22, I9; log 12). -/
def cell (bs : List Byte) (i : Nat) : Byte := bs.getD i (Config.deadCell i)

/-- Bytes as one number, the first byte least significant: byte `i` stands at bits `8i+7..8i` (R74). -/
def packLanes : List Byte → Nat
  | [] => 0
  | b :: bs => b.toNat + 256 * packLanes bs

/-- The payload of an ENCODE request at the port: byte `i < req_len` is lane `i` of `req_data`; the port
has eight lanes, so a byte from 8 on is a free value (R69; log 15). -/
def payloadLanes (len : BitVec 4) (data : BitVec 64) : List Byte :=
  (List.range len.toNat).map fun i => if i < 8 then data.extractLsb' (8 * i) 8 else Config.deadLane i

end Sys2Proof.Machine
end

