-- ==== Sys2Proof/Syntax.lean ====
section
/-! DEFINITION. The operations of the block, one constructor per row of spec/opcode_table.json, and the
requests that carry them. -/

namespace Sys2Proof

/-- The decoder's discrete state (10_state.md R21). -/
inductive St where
  | waiting
  | expectLength
  | inPayload
  deriving DecidableEq, Repr

/-- What the decode map of R65 looks at beside the byte: its columns `st` and `pending`. -/
structure Context where
  st      : St
  pending : Bool
  deriving DecidableEq, Repr

/-- The context after reset (10_state.md R32). -/
def Context.reset : Context := ⟨.waiting, false⟩

/-- The nine byte classes, the rows of the decode map (30_encoding.md R65). -/
inductive ByteClass where
  | sof
  | ignore
  | len
  | badlen
  | unescStart
  | unescEsc
  | badesc
  | esc
  | data
  deriving DecidableEq, Repr

/-- The operations: every row of the opcode table. A row whose byte is a parameter of R7 has no operand. -/
inductive Instr where
  /-- FEED.SOF: the byte is `FRAME_START` (R121). -/
  | feedSof
  /-- FEED.IGNORE (R122). -/
  | feedIgnore (b : Byte)
  /-- FEED.LEN (R123). -/
  | feedLen (b : Byte)
  /-- FEED.BADLEN (R124). -/
  | feedBadlen (b : Byte)
  /-- FEED.UNESC_START: the byte is `ESCAPED_START` (R125). -/
  | feedUnescStart
  /-- FEED.UNESC_ESC: the byte is `ESCAPED_ESCAPE` (R126). -/
  | feedUnescEsc
  /-- FEED.BADESC (R127). -/
  | feedBadesc (b : Byte)
  /-- FEED.ESC: the byte is `ESCAPE` (R128). -/
  | feedEsc
  /-- FEED.DATA (R129). -/
  | feedData (b : Byte)
  /-- ENCODE: an identifier and a payload of any length (R69, R100). -/
  | encode (id : Ident) (payload : List Byte)
  /-- FEED: one byte and no other field (R70, R120). -/
  | feed (b : Byte)
  /-- RESET: no operands (R180). -/
  | reset
  /-- TOK.SOF: the frame-start marker at offset 0 (R60, R61). -/
  | tokSof
  /-- TOK.LEN: the LENGTH byte at offset 1, `0000LLLL` (R61, R76). -/
  | tokLen (l : BitVec 4)
  /-- TOK.ESC_START: an escaped `FRAME_START` data byte (R62). -/
  | tokEscStart
  /-- TOK.ESC_ESC: an escaped `ESCAPE` data byte (R62). -/
  | tokEscEsc
  /-- TOK.LIT: a data byte sent unchanged (R62). -/
  | tokLit (d : Byte)
  deriving DecidableEq, Repr

/-- The five formats of the opcode table (its column `format`). -/
inductive Format where
  /-- A fed byte, read as the row of R65 that the decoder state selects. -/
  | feedByte
  /-- An ENCODE request (R69). -/
  | encodeRequest
  /-- A FEED request (R70); several bytes are the pseudo-operation `FEED [b0 b1 ...]` (R75). -/
  | feedRequest
  /-- RESET (R180). -/
  | reset
  /-- Fed bytes, read as the tokens of a frame (R60 to R63). -/
  | wireToken
  deriving DecidableEq, Repr

/-- A request of the host: its format and its bytes, the first byte first (R12). -/
structure Request where
  format : Format
  bytes  : List Byte
  deriving DecidableEq, Repr

/-- Why bytes are no request of their format. No interface of the spec can carry either (log 9). -/
inductive DecodeError where
  /-- An ENCODE request that ends inside its 4 identifier bytes. -/
  | encodeWithoutIdentifier
  /-- A RESET that carries bytes: it has no operands (R180). -/
  | resetWithOperands
  deriving DecidableEq, Repr

end Sys2Proof
end

