-- ==== Sys2Proof/Decode.lean ====
section
/-! DEFINITION. The decode map of a fed byte (30_encoding.md R65), the reading of a request's bytes, and
the encoder of operations. -/

namespace Sys2Proof

open Machine (IsLength idLe32 rawId)

/-- The decode map (R65, in the test order of R133): the class of byte `b` in a decoder state. The table
gives `pending = 0` outside `InPayload`; no state of R25 has it set there and it is not looked at. -/
def classify (c : Config) (x : Context) (b : Byte) : ByteClass :=
  if b = c.frameStart then .sof
  else match x.st with
    | .waiting => .ignore
    | .expectLength => if IsLength b then .len else .badlen
    | .inPayload =>
      if x.pending then
        if b = c.escapedStart then .unescStart
        else if b = c.escapedEscape then .unescEsc
        else .badesc
      else if b = c.escape then .esc
      else .data

/-- The opcode-table row of a fed byte, by its class (R65). -/
def ByteClass.row (k : ByteClass) (b : Byte) : Instr :=
  match k with
  | .sof => .feedSof
  | .ignore => .feedIgnore b
  | .len => .feedLen b
  | .badlen => .feedBadlen b
  | .unescStart => .feedUnescStart
  | .unescEsc => .feedUnescEsc
  | .badesc => .feedBadesc b
  | .esc => .feedEsc
  | .data => .feedData b

/-- The token at the head of fed bytes `b :: rest`, and the bytes after it (R60 to R63). Offset 1 is the
byte fed in `ExpectLength` (R61). A byte that starts no token there (an escape without its substitute, a
LENGTH out of range, a byte in the middle of an escape) is fed as it is (R66; log 8). -/
def decodeToken (c : Config) (x : Context) (b : Byte) (rest : List Byte) : Instr × List Byte :=
  if b = c.frameStart then (.tokSof, rest)
  else if x.st = .expectLength then
    if IsLength b then (.tokLen (b.setWidth 4), rest) else (.feed b, rest)
  else if x.pending then (.feed b, rest)
  else if b = c.escape then
    match rest with
    | [] => (.feed b, [])
    | y :: ys =>
      if y = c.escapedStart then (.tokEscStart, ys)
      else if y = c.escapedEscape then (.tokEscEsc, ys)
      else (.feed b, rest)
  else (.tokLit b, rest)

/-- What reading a request gives. -/
inductive Decoded where
  /-- An operation, and the bytes of the request that are left after it. -/
  | instr (i : Instr) (more : List Byte)
  /-- A group of fed bytes that holds no more bytes: nothing is left to do (R75). -/
  | done
  /-- The bytes are no request of their format. -/
  | rejected (e : DecodeError)
  deriving DecidableEq, Repr

/-- Reading the next operation of a request in a decoder state. Total: every byte of a fed group has a
reading (R66). -/
def decode (c : Config) (x : Context) (r : Request) : Decoded :=
  match r.format, r.bytes with
  | .feedByte, [] => .done
  | .feedByte, b :: rest => .instr ((classify c x b).row b) rest
  | .feedRequest, [] => .done
  | .feedRequest, b :: rest => .instr (.feed b) rest
  | .wireToken, [] => .done
  | .wireToken, b :: rest => .instr (decodeToken c x b rest).1 (decodeToken c x b rest).2
  | .encodeRequest, b0 :: b1 :: b2 :: b3 :: payload => .instr (.encode (rawId b0 b1 b2 b3) payload) []
  | .encodeRequest, _ => .rejected .encodeWithoutIdentifier
  | .reset, [] => .instr .reset []
  | .reset, _ :: _ => .rejected .resetWithOperands

/-- The request that carries an operation: its format and its bytes (R62, R69, R70, R75, R76). -/
def encode (c : Config) : Instr → Request
  | .feedSof => ⟨.feedByte, [c.frameStart]⟩
  | .feedIgnore b => ⟨.feedByte, [b]⟩
  | .feedLen b => ⟨.feedByte, [b]⟩
  | .feedBadlen b => ⟨.feedByte, [b]⟩
  | .feedUnescStart => ⟨.feedByte, [c.escapedStart]⟩
  | .feedUnescEsc => ⟨.feedByte, [c.escapedEscape]⟩
  | .feedBadesc b => ⟨.feedByte, [b]⟩
  | .feedEsc => ⟨.feedByte, [c.escape]⟩
  | .feedData b => ⟨.feedByte, [b]⟩
  | .encode id payload => ⟨.encodeRequest, idLe32 id ++ payload⟩
  | .feed b => ⟨.feedRequest, [b]⟩
  | .reset => ⟨.reset, []⟩
  | .tokSof => ⟨.wireToken, [c.frameStart]⟩
  | .tokLen l => ⟨.wireToken, [l.setWidth 8]⟩
  | .tokEscStart => ⟨.wireToken, [c.escape, c.escapedStart]⟩
  | .tokEscEsc => ⟨.wireToken, [c.escape, c.escapedEscape]⟩
  | .tokLit d => ⟨.wireToken, [d]⟩

/-- The `n` bytes of a word, the least significant first. -/
def wordBytes (n w : Nat) : List Byte := (List.range n).map fun i => BitVec.ofNat 8 (w >>> (8 * i))

/-- The request that a word of the opcode table stands for (log 10): no bits, RESET; 8 bits, one fed byte;
16 bits, a two-byte token whose first wire byte is bits 15..8, as the table numbers `FE FD`; 32 bits or
more, an ENCODE request, identifier first. -/
def tableRequest (nbits w : Nat) : Option Request :=
  if nbits = 0 then some ⟨.reset, []⟩
  else if nbits = 8 then some ⟨.feedByte, wordBytes 1 w⟩
  else if nbits = 16 then some ⟨.wireToken, (wordBytes 2 w).reverse⟩
  else if 32 ≤ nbits ∧ nbits % 8 = 0 then some ⟨.encodeRequest, wordBytes (nbits / 8) w⟩
  else none

/-- The operation that the decoder reads from a word of the opcode table, under the default constants and
in the decoder state after reset; none where the word is not one whole operation. -/
def decodeTableWord (nbits w : Nat) : Option Instr :=
  match tableRequest nbits w with
  | none => none
  | some r =>
    match decode Config.standard Context.reset r with
    | .instr i [] => some i
    | _ => none

end Sys2Proof
end

