-- ==== Sys2Proof/Machine/State.lean ====
section
/-! DEFINITION. The state of the block, its outputs, and the reasons a step can stop. Plain data. -/

namespace Sys2Proof.Machine

/-- The decoder state: a record of exactly four fields (10_state.md R20 to R24). -/
structure DecoderState where
  /-- The discrete state (R21). -/
  st      : St
  /-- The accumulation buffer, capacity 12 (R22). -/
  buf     : List Byte
  /-- The target length, unset or 4..12 (R23). -/
  target  : Option Nat
  /-- The pending-escape flag (R24). -/
  pending : Bool
  deriving DecidableEq, Repr

/-- `Waiting0 = (Waiting, [], unset, 0)`: the reset values of R32. -/
def DecoderState.waiting0 : DecoderState := ⟨.waiting, [], none, false⟩

/-- What the decode map looks at (R65). -/
def DecoderState.context (d : DecoderState) : Context := ⟨d.st, d.pending⟩

/-- The decoder's error kinds (60_exceptions.md R160). -/
inductive ProtocolError where
  | badLength
  | badEscape
  deriving DecidableEq, Repr

/-- The output of one FEED (30_encoding.md R71). -/
inductive Event where
  | none
  | message (id : Ident) (payload : List Byte)
  | error (e : ProtocolError)
  deriving DecidableEq, Repr

/-- The result of one ENCODE (30_encoding.md R72): the frame, or `InvalidArgument` with no bytes. -/
inductive EncodeResult where
  | ok (bytes : List Byte)
  | invalidArgument
  deriving DecidableEq, Repr

/-- Register codes of the port realisation that the spec leaves unused (93_implementation_defined.md I10).
Only Machine/Ports.lean raises them; `exec` and `step` never fault (41_decoder.md R139). -/
inductive Fault where
  /-- `st` code 3 (R21). Raised by a FEED of the port realisation. Safe. -/
  | unusedStateCode
  /-- `target` code 1..3 or 13..15 (R23). Raised by a FEED of the port realisation. Safe. -/
  | unusedTargetCode
  /-- Buffer count 13..15 (R22). Raised by a FEED of the port realisation. Safe. -/
  | unusedCountCode
  deriving DecidableEq, Repr

/-- Why the model gives a step no meaning. -/
inductive Refusal where
  /-- An operation without its meaning: raised by an arm of `exec`. Safe. -/
  | notModelled (mnemonic : String)
  /-- The parameters break a constraint of 00_scope.md R8, which has the model refuse them (D16). Raised
  by every operation. Safe. -/
  | illegalConfiguration
  /-- The bytes are no request of their format (log 9). Raised by `step`. Safe. -/
  | badRequest (e : DecodeError)
  deriving DecidableEq, Repr

/-- The machine. `dec` is the state the spec gives the block; `events` and `results` are its outputs;
`cfg` and `requests` are the model's own (log 1, 3, 4). -/
structure State where
  /-- The build parameters (R7, R9). No operation writes them (R29). -/
  cfg      : Config
  /-- The decoder state (R20). -/
  dec      : DecoderState
  /-- The requests the host has issued and the block has not performed, in order (R51, R75). -/
  requests : List Request
  /-- The event of every FEED so far, oldest first (R71). -/
  events   : List Event
  /-- The result of every ENCODE so far, oldest first (R72). -/
  results  : List EncodeResult
  deriving DecidableEq, Repr

/-- The machine at power-on (70_reset_and_hazards.md R181): the decoder at the values of R32, built with
the spec's default parameters (log 2), nothing requested and nothing output. -/
def State.reset : State where
  cfg      := Config.standard
  dec      := DecoderState.waiting0
  requests := []
  events   := []
  results  := []

end Sys2Proof.Machine
end

