-- ==== Sys2Proof/Machine/Flags.lean ====
section
/-! DEFINITION. The block's only flag, pending-escape (10_state.md R24). -/

namespace Sys2Proof.Machine

/-- `s.pending <- 1`: set by an `ESCAPE` byte in `InPayload`; the other fields stay (41_decoder.md R128). -/
def DecoderState.setPending (d : DecoderState) : DecoderState := { d with pending := true }

/-- The flag after a FEED whose byte has class `k`, from the flag before it: the `Flag written` line of
each of R121 to R129. -/
def pendingAfter (k : ByteClass) (old : Bool) : Bool :=
  match k with
  | .sof => false
  | .ignore => old
  | .len => false
  | .badlen => false
  | .unescStart => false
  | .unescEsc => false
  | .badesc => false
  | .esc => true
  | .data => false

end Sys2Proof.Machine
end

