-- ==== Sys2Proof/Machine/Ops.lean ====
section
/-! DEFINITION. The shared operations: the decoder's step (41_decoder.md R120, R130 to R132), the
encoder's frame (30_encoding.md R60 to R63, 40_encoder.md R100), and how an operation of the machine
completes. -/

namespace Sys2Proof.Machine

/-! ### The decoder -/

/-- POLICY: the identifier policy on a reassembled identifier (R132). -/
def applyPolicy (p : IdPolicy) (raw : Ident) (payload : List Byte) : Event :=
  if topBits raw = 0 then .message raw payload
  else match p with
    | .pass => .message raw payload
    | .mask => .message (raw &&& 0x1FFFFFFF) payload
    | .drop => .none

/-- MESSAGE: the first four bytes of the buffer are the identifier, little-endian; the rest is the payload
(R131, R43). -/
def message (c : Config) (nb : List Byte) : Event :=
  applyPolicy c.idPolicy (rawId (cell nb 0) (cell nb 1) (cell nb 2) (cell nb 3)) (nb.drop 4)

/-- PUSH: append one byte, clear `pending`, and complete the frame when the buffer reaches the target
(R130). -/
def push (c : Config) (d : DecoderState) (x : Byte) : DecoderState × Event :=
  if some (d.buf.length + 1) = d.target then (.waiting0, message c (d.buf ++ [x]))
  else (⟨.inPayload, d.buf ++ [x], d.target, false⟩, .none)

/-- How the decoder reports an error: there is no trap; the frame in progress is discarded, the decoder
goes to `Waiting0`, and the error is the event of that FEED (60_exceptions.md R163, R164). -/
def protocolError (e : ProtocolError) : DecoderState × Event := (.waiting0, .error e)

/-- FEED: the whole definition of R120, in the test order of R133. -/
def feed (c : Config) (d : DecoderState) (b : Byte) : DecoderState × Event :=
  if b = c.frameStart then (⟨.expectLength, [], none, false⟩, .none)
  else match d.st with
    | .waiting => (d, .none)
    | .expectLength =>
      if IsLength b then (⟨.inPayload, [], some b.toNat, false⟩, .none) else protocolError .badLength
    | .inPayload =>
      if d.pending then
        if b = c.escapedStart then push c d c.frameStart
        else if b = c.escapedEscape then push c d c.escape
        else protocolError .badEscape
      else if b = c.escape then (d.setPending, .none)
      else push c d b

/-- `FEED [b0 b1 ...]`: the FEEDs of the bytes in order, and their events in order (30_encoding.md R75). -/
def feedAll (c : Config) : DecoderState → List Byte → DecoderState × List Event
  | d, [] => (d, [])
  | d, b :: bs =>
    ((feedAll c (feed c d b).1 bs).1, (feed c d b).2 :: (feedAll c (feed c d b).1 bs).2)

/-! ### The encoder -/

/-- `esc`: a marker becomes its two-byte escape sequence, any other byte is sent unchanged (R62). -/
def esc (c : Config) (x : Byte) : List Byte :=
  if x = c.frameStart then [c.escape, c.escapedStart]
  else if x = c.escape then [c.escape, c.escapedEscape]
  else [x]

/-- `ESCAPED(s)` (R62). -/
def escaped (c : Config) (s : List Byte) : List Byte := s.flatMap (esc c)

/-- `identifier_le32 ++ payload` (R60). -/
def region (id : Ident) (payload : List Byte) : List Byte := idLe32 id ++ payload

/-- The frame `[FRAME_START][LENGTH][ESCAPED(identifier_le32 ++ payload)]` (R60, R63). -/
def frame (c : Config) (id : Ident) (payload : List Byte) : List Byte :=
  c.frameStart :: lengthByte payload.length :: escaped c (region id payload)

/-- ENCODE's checks (R101, R102): a payload of at most 8 bytes and identifier bits 31..29 zero. -/
abbrev Encodable (id : Ident) (payload : List Byte) : Prop := payload.length ≤ 8 ∧ topBits id = 0

/-- ENCODE: the frame, or one `InvalidArgument` before any byte is produced (R100 to R104). -/
def encodeFrame (c : Config) (id : Ident) (payload : List Byte) : EncodeResult :=
  if Encodable id payload then .ok (frame c id payload) else .invalidArgument

/-! ### The machine -/

/-- The state after FEEDs of the bytes `bs`: the decoder moves and their events come out (R48). -/
def State.feedBytes (s : State) (bs : List Byte) : State :=
  { s with dec := (feedAll s.cfg s.dec bs).1, events := s.events ++ (feedAll s.cfg s.dec bs).2 }

/-- The state after one FEED that moves the decoder and outputs an event, both at once (R47, R71). -/
def State.emit (s : State) (r : DecoderState × Event) : State :=
  { s with dec := r.1, events := s.events ++ [r.2] }

/-- The state after one FEED (R120). -/
def State.feed (s : State) (b : Byte) : State := s.emit (Machine.feed s.cfg s.dec b)

/-- The state after a FEED of `b` named by its row `k`: the row's own transition where R65 selects that
row; a FEED request carries only its byte (R70), so elsewhere it is the FEED of `b` (log 6). -/
def State.feedRow (s : State) (k : ByteClass) (b : Byte) (row : DecoderState × Event) : State :=
  if classify s.cfg s.dec.context b = k then s.emit row else s.feed b

/-- The state after an ENCODE: its result comes out and nothing else changes (R28, R48, R103). -/
def State.addResult (s : State) (r : EncodeResult) : State := { s with results := s.results ++ [r] }

/-- How every operation ends: in its next state under legal parameters, and refused under a configuration
that breaks a constraint (00_scope.md R8). -/
def complete (s t : State) : Host.Outcome State Fault Refusal :=
  if s.cfg.Legal then .next t else .refused .illegalConfiguration

end Sys2Proof.Machine
end

