-- ==== Sys2Proof/Machine/Control.lean ====
section
/-! DEFINITION. RESET (70_reset_and_hazards.md R180). -/

namespace Sys2Proof.Machine

/-- RESET: `s <- (Waiting, [], unset, 0)`; no event, and the encoder and the constants are not touched. -/
def execReset (s : State) : Host.Outcome State Fault Refusal :=
  complete s { s with dec := .waiting0 }

end Sys2Proof.Machine
end

