-- ==== Sys2Proof/Machine/Encoder.lean ====
section
/-! DEFINITION. ENCODE (40_encoder.md R100 to R106). -/

namespace Sys2Proof.Machine

/-- ENCODE: a pure function of its operands and the constants (R105), whose result comes out. -/
def execEncode (id : Ident) (payload : List Byte) (s : State) : Host.Outcome State Fault Refusal :=
  complete s (s.addResult (encodeFrame s.cfg id payload))

end Sys2Proof.Machine
end

