-- ==== Sys2Proof/Machine/Feed.lean ====
section
/-! DEFINITION. FEED and its nine classes (41_decoder.md R120 to R129): each row's own transition, then its
meaning. -/

namespace Sys2Proof.Machine

/-! ### The rows' transitions -/

/-- R121: a new frame starts, whatever the state; a frame in progress is discarded with no event. -/
def rowSof : DecoderState × Event := (⟨.expectLength, [], none, false⟩, .none)

/-- R122: the byte is discarded. -/
def rowIgnore (d : DecoderState) : DecoderState × Event := (d, .none)

/-- R123: the target is the LENGTH byte itself, not `b - 4` (90_conflicts.md C1). -/
def rowLen (b : Byte) : DecoderState × Event := (⟨.inPayload, [], some b.toNat, false⟩, .none)

/-- R124: a recoverable protocol error, never a stop (R139). -/
def rowBadlen : DecoderState × Event := protocolError .badLength

/-- R125: the substitute stands for a `FRAME_START` data byte. -/
def rowUnescStart (c : Config) (d : DecoderState) : DecoderState × Event := push c d c.frameStart

/-- R126: the substitute stands for an `ESCAPE` data byte. -/
def rowUnescEsc (c : Config) (d : DecoderState) : DecoderState × Event := push c d c.escape

/-- R127: the frame in progress is discarded. -/
def rowBadesc : DecoderState × Event := protocolError .badEscape

/-- R128: `pending` is set; the byte is not appended. -/
def rowEsc (d : DecoderState) : DecoderState × Event := (d.setPending, .none)

/-- R129: the byte is appended unchanged. -/
def rowData (c : Config) (d : DecoderState) (b : Byte) : DecoderState × Event := push c d b

/-! ### The meanings -/

/-- FEED.SOF (R121). -/
def execFeedSof (s : State) : Host.Outcome State Fault Refusal :=
  complete s (s.feedRow .sof s.cfg.frameStart rowSof)

/-- FEED.IGNORE (R122). -/
def execFeedIgnore (b : Byte) (s : State) : Host.Outcome State Fault Refusal :=
  complete s (s.feedRow .ignore b (rowIgnore s.dec))

/-- FEED.LEN (R123). -/
def execFeedLen (b : Byte) (s : State) : Host.Outcome State Fault Refusal :=
  complete s (s.feedRow .len b (rowLen b))

/-- FEED.BADLEN (R124). -/
def execFeedBadlen (b : Byte) (s : State) : Host.Outcome State Fault Refusal :=
  complete s (s.feedRow .badlen b rowBadlen)

/-- FEED.UNESC_START (R125). -/
def execFeedUnescStart (s : State) : Host.Outcome State Fault Refusal :=
  complete s (s.feedRow .unescStart s.cfg.escapedStart (rowUnescStart s.cfg s.dec))

/-- FEED.UNESC_ESC (R126). -/
def execFeedUnescEsc (s : State) : Host.Outcome State Fault Refusal :=
  complete s (s.feedRow .unescEsc s.cfg.escapedEscape (rowUnescEsc s.cfg s.dec))

/-- FEED.BADESC (R127). -/
def execFeedBadesc (b : Byte) (s : State) : Host.Outcome State Fault Refusal :=
  complete s (s.feedRow .badesc b rowBadesc)

/-- FEED.ESC (R128). -/
def execFeedEsc (s : State) : Host.Outcome State Fault Refusal :=
  complete s (s.feedRow .esc s.cfg.escape (rowEsc s.dec))

/-- FEED.DATA (R129). -/
def execFeedData (b : Byte) (s : State) : Host.Outcome State Fault Refusal :=
  complete s (s.feedRow .data b (rowData s.cfg s.dec b))

/-- FEED: one byte, every state (R120). -/
def execFeed (b : Byte) (s : State) : Host.Outcome State Fault Refusal :=
  complete s (s.feed b)

end Sys2Proof.Machine
end

