-- ==== Sys2Proof/Machine/Token.lean ====
section
/-! DEFINITION. The wire tokens as operations: the FEEDs of a token's bytes in order (30_encoding.md R60 to
R63, R75; log 7). -/

namespace Sys2Proof.Machine

/-- TOK.SOF: `[FRAME_START]` (R60). -/
def execTokSof (s : State) : Host.Outcome State Fault Refusal :=
  complete s (s.feedBytes [s.cfg.frameStart])

/-- TOK.LEN: the byte `0000LLLL` (R61, R76). -/
def execTokLen (l : BitVec 4) (s : State) : Host.Outcome State Fault Refusal :=
  complete s (s.feedBytes [l.setWidth 8])

/-- TOK.ESC_START: `[ESCAPE][ESCAPED_START]` (R62). -/
def execTokEscStart (s : State) : Host.Outcome State Fault Refusal :=
  complete s (s.feedBytes [s.cfg.escape, s.cfg.escapedStart])

/-- TOK.ESC_ESC: `[ESCAPE][ESCAPED_ESCAPE]` (R62). -/
def execTokEscEsc (s : State) : Host.Outcome State Fault Refusal :=
  complete s (s.feedBytes [s.cfg.escape, s.cfg.escapedEscape])

/-- TOK.LIT: the byte unchanged (R62). -/
def execTokLit (d : Byte) (s : State) : Host.Outcome State Fault Refusal :=
  complete s (s.feedBytes [d])

end Sys2Proof.Machine
end

