-- ==== Sys2Proof/Machine/Dispatch.lean ====
section
/-! DEFINITION. One arm per operation. -/

namespace Sys2Proof.Machine

/-- The meaning of every operation. -/
def exec (i : Instr) (s : State) : Host.Outcome State Fault Refusal :=
  match i with
  | .feedSof => Sys2Proof.Machine.execFeedSof s
  | .feedIgnore b => Sys2Proof.Machine.execFeedIgnore b s
  | .feedLen b => Sys2Proof.Machine.execFeedLen b s
  | .feedBadlen b => Sys2Proof.Machine.execFeedBadlen b s
  | .feedUnescStart => Sys2Proof.Machine.execFeedUnescStart s
  | .feedUnescEsc => Sys2Proof.Machine.execFeedUnescEsc s
  | .feedBadesc b => Sys2Proof.Machine.execFeedBadesc b s
  | .feedEsc => Sys2Proof.Machine.execFeedEsc s
  | .feedData b => Sys2Proof.Machine.execFeedData b s
  | .encode id payload => Sys2Proof.Machine.execEncode id payload s
  | .feed b => Sys2Proof.Machine.execFeed b s
  | .reset => Sys2Proof.Machine.execReset s
  | .tokSof => Sys2Proof.Machine.execTokSof s
  | .tokLen l => Sys2Proof.Machine.execTokLen l s
  | .tokEscStart => Sys2Proof.Machine.execTokEscStart s
  | .tokEscEsc => Sys2Proof.Machine.execTokEscEsc s
  | .tokLit d => Sys2Proof.Machine.execTokLit d s

end Sys2Proof.Machine
end

