-- ==== Sys2Proof/Machine/Fetch.lean ====
section
/-! DEFINITION. Taking the next operation from the host's requests (30_encoding.md R69, R70, R75). -/

namespace Sys2Proof.Machine

/-- What the host's requests give next. -/
inductive Fetched where
  /-- Nothing is requested. -/
  | idle
  /-- The group at the head has no bytes left. -/
  | finished (rest : List Request)
  /-- An operation, and the requests that stay after it. -/
  | fetched (i : Instr) (rest : List Request)
  /-- The request at the head is in no format. -/
  | bad (e : DecodeError)
  deriving DecidableEq, Repr

/-- The requests that stay when `more` is left of the group at the head. -/
def requeue (f : Format) (more : List Byte) (rest : List Request) : List Request :=
  if more = [] then rest else ⟨f, more⟩ :: rest

/-- The next operation: the first request, read in the present decoder state; a group of fed bytes gives
one operation at a time, in arrival order (R51, R75). -/
def State.fetch (s : State) : Fetched :=
  match s.requests with
  | [] => .idle
  | r :: rest =>
    match decode s.cfg s.dec.context r with
    | .done => .finished rest
    | .instr i more => .fetched i (requeue r.format more rest)
    | .rejected e => .bad e

end Sys2Proof.Machine
end

