-- ==== Sys2Proof/Machine/Step.lean ====
section
/-! DEFINITION. One step of the machine. -/

namespace Sys2Proof.Machine

/-- One step performs the next operation the host has requested. With nothing requested, or at the end of
a group of bytes, no state of the block changes: nothing expires (60_exceptions.md R170; log 5). -/
def step (s : State) : Host.Outcome State Fault Refusal :=
  match s.fetch with
  | .idle => .next s
  | .finished rest => .next { s with requests := rest }
  | .fetched i rest => exec i { s with requests := rest }
  | .bad e => .refused (.badRequest e)

/-- `s` with the operation of a word of the opcode table requested next (log 11). A word that is no
request changes nothing. -/
def State.withFetchWord (s : State) (nbits w : Nat) : State :=
  { s with requests := (tableRequest nbits w).toList ++ s.requests }

end Sys2Proof.Machine
end

