-- ==== Sys2Proof/Machine/Ports.lean ====
section
/-! DEFINITION. The spec's port-level realisation (30_encoding.md R73, R74; 10_state.md R21 to R24; D7, D8,
D18, D20, D21). The machine above does not depend on it. -/

namespace Sys2Proof.Machine

/-! ### Signals -/

/-- The input ports of one step (R74). -/
structure PortIn where
  rst      : Bool
  fdValid  : Bool
  fdByte   : BitVec 8
  encValid : Bool
  reqId    : BitVec 32
  reqLen   : BitVec 4
  reqData  : BitVec 64
  deriving DecidableEq, Repr

/-- The decoder's output ports for one FEED (R74). -/
structure EventPorts where
  evKind : BitVec 2
  evId   : BitVec 32
  evLen  : BitVec 4
  evData : BitVec 64
  deriving DecidableEq, Repr

/-- The encoder's output ports for one ENCODE (R74). -/
structure ResultPorts where
  encStatus : BitVec 1
  encCount  : BitVec 5
  encBytes  : BitVec 208
  deriving DecidableEq, Repr

/-- The output ports of one step. The ports of a part that has no request carry no result (log 14). -/
structure PortOut where
  ev  : Option EventPorts
  enc : Option ResultPorts
  deriving DecidableEq, Repr

/-- `ev_kind`'s code (R73). -/
def eventKind : Event → BitVec 2
  | .none => 0
  | .message _ _ => 1
  | .error .badLength => 2
  | .error .badEscape => 3

/-- The decoder's ports for an event: 0 where it is no message, and in lanes from `ev_len` on (R74, D18). -/
def eventPorts : Event → EventPorts
  | .message id payload => ⟨1, id, BitVec.ofNat 4 payload.length, BitVec.ofNat 64 (packLanes payload)⟩
  | e => ⟨eventKind e, 0, 0, 0⟩

/-- The encoder's ports for a result: no byte on an error (R73, R74, R103). -/
def resultPorts : EncodeResult → ResultPorts
  | .ok bytes => ⟨0, BitVec.ofNat 5 bytes.length, BitVec.ofNat 208 (packLanes bytes)⟩
  | .invalidArgument => ⟨1, 0, 0⟩

/-! ### Registers -/

/-- The registers of the decoder (R21 to R24, D21), and the model's own count of the steps that raised RESET
and FEED together, which picks the free order of the next one (log 13). -/
structure PortRegs where
  st      : BitVec 2
  count   : BitVec 4
  cells   : Vector (BitVec 8) 12
  target  : BitVec 4
  pending : BitVec 1
  turn    : Nat
  deriving DecidableEq, Repr

/-- `st` in 2 bits: `Waiting = 0`, `ExpectLength = 1`, `InPayload = 2` (R21). -/
def stCode : St → BitVec 2
  | .waiting => 0
  | .expectLength => 1
  | .inPayload => 2

/-- The state a code of `st` stands for; code 3 stands for none (R21, I10). -/
def stOfCode (v : BitVec 2) : Option St :=
  if v = 0 then some .waiting
  else if v = 1 then some .expectLength
  else if v = 2 then some .inPayload
  else none

/-- `target` in 4 bits, 0 standing for unset (R23). -/
def targetCode : Option Nat → BitVec 4
  | none => 0
  | some t => BitVec.ofNat 4 t

/-- The target a code stands for: unset, 4..12, or none of them (R23, I10). -/
def targetOfCode (v : BitVec 4) : Option (Option Nat) :=
  if v = 0 then some none
  else if 4 ≤ v.toNat ∧ v.toNat ≤ 12 then some (some v.toNat)
  else none

/-- The decoder state that registers hold, or a fault for a code the spec leaves unused (I10). Cells at or
above the count are not read (R22, I9). -/
def PortRegs.abs (r : PortRegs) : Except Fault DecoderState :=
  match stOfCode r.st with
  | none => .error .unusedStateCode
  | some st =>
    match targetOfCode r.target with
    | none => .error .unusedTargetCode
    | some t =>
      if 12 < r.count.toNat then .error .unusedCountCode
      else .ok ⟨st, r.cells.toList.take r.count.toNat, t, r.pending = 1⟩

/-- The registers after the decoder state `d` is written into `r`: cells below the new count hold the
buffer, the others keep what they held (R22, I9; log 16). -/
def PortRegs.store (r : PortRegs) (d : DecoderState) : PortRegs where
  st      := stCode d.st
  count   := BitVec.ofNat 4 d.buf.length
  cells   := Vector.ofFn fun i => d.buf.getD i r.cells[i]
  target  := targetCode d.target
  pending := BitVec.ofBool d.pending
  turn    := r.turn

/-- RESET on the registers, whatever they hold (R180). -/
def PortRegs.reset (r : PortRegs) : PortRegs := r.store .waiting0

/-- The FEED of a byte on the registers (R120). -/
def PortRegs.feed (c : Config) (r : PortRegs) (b : Byte) : Except Fault (PortRegs × EventPorts) :=
  match r.abs with
  | .error f => .error f
  | .ok d => .ok (r.store (Machine.feed c d b).1, eventPorts (Machine.feed c d b).2)

/-- RESET and the FEED of a byte in one step: both happen, and the event is the FEED's (R74, R71, R180). The
spec leaves their order open: it is the free value `Config.resetFirst` (log 13). -/
def PortRegs.resetAndFeed (c : Config) (r : PortRegs) (b : Byte) : Except Fault (PortRegs × EventPorts) :=
  let r' := { r with turn := r.turn + 1 }
  if Config.resetFirst r.turn then r'.reset.feed c b
  else match r'.feed c b with
    | .error f => .error f
    | .ok q => .ok (q.1.reset, q.2)

/-! ### One step of the ports -/

/-- The operations of the decoder's ports in one step, in their order (R74; log 13). -/
def PortIn.decoderOps (resetFirst : Bool) (p : PortIn) : List Instr :=
  match p.rst, p.fdValid with
  | true, true => if resetFirst then [.reset, .feed p.fdByte] else [.feed p.fdByte, .reset]
  | true, false => [.reset]
  | false, true => [.feed p.fdByte]
  | false, false => []

/-- The operation of the encoder's ports in one step (R69, R74). -/
def PortIn.encoderOps (p : PortIn) : List Instr :=
  if p.encValid then [.encode p.reqId (payloadLanes p.reqLen p.reqData)] else []

/-- What the decoder's ports do to the registers and put out: no event without a FEED (R71, R74, R180). -/
def PortIn.decoderStep (c : Config) (r : PortRegs) (p : PortIn) :
    Except Fault (PortRegs × Option EventPorts) :=
  match p.rst, p.fdValid with
  | true, true => (r.resetAndFeed c p.fdByte).map fun q => (q.1, some q.2)
  | true, false => .ok (r.reset, none)
  | false, true => (r.feed c p.fdByte).map fun q => (q.1, some q.2)
  | false, false => .ok (r, none)

/-- The encoder's output in one step (R72, R74). -/
def PortIn.encoderOut (c : Config) (p : PortIn) : Option ResultPorts :=
  if p.encValid then some (resultPorts (encodeFrame c p.reqId (payloadLanes p.reqLen p.reqData))) else none

/-- One step of the port realisation: RESET, a FEED, both or neither, and beside them an ENCODE or none; the
two parts share no state (20_memory.md R50; log 13). -/
def portStep (c : Config) (r : PortRegs) (p : PortIn) : Host.Outcome (PortRegs × PortOut) Fault Refusal :=
  if c.Legal then
    match p.decoderStep c r with
    | .error f => .fault f
    | .ok q => .next (q.1, ⟨q.2, p.encoderOut c⟩)
  else .refused .illegalConfiguration

end Sys2Proof.Machine
end

