-- ==== Sys2Proof/Safety.lean ====
section
/-! DEFINITION. What a good state is: the table of reachable decoder states, and outputs of the forms the
spec gives. -/

namespace Sys2Proof.Machine

/-- The three shapes of a reachable decoder state (10_state.md R25). -/
def DecoderState.Shape (d : DecoderState) : Prop :=
  (d.st = .waiting ∧ d.buf = [] ∧ d.target = none ∧ d.pending = false) ∨
  (d.st = .expectLength ∧ d.buf = [] ∧ d.target = none ∧ d.pending = false) ∨
  (d.st = .inPayload ∧ ∃ t, d.target = some t ∧ 4 ≤ t ∧ t ≤ 12 ∧ d.buf.length < t)

/-- An event of a form R71 gives, whose identifier is the policy's (R132): under MASK and DROP no message
has any of bits 31..29 set. -/
def Event.Ok (c : Config) : Event → Prop
  | .message id payload => payload.length ≤ 8 ∧ (c.idPolicy ≠ .pass → topBits id = 0)
  | _ => True

/-- A result of a form R72 gives: 6 to 26 bytes, with `FRAME_START` first and nowhere else (R64, R67). -/
def EncodeResult.Ok (c : Config) : EncodeResult → Prop
  | .ok bytes => 6 ≤ bytes.length ∧ bytes.length ≤ 26 ∧ bytes.head? = some c.frameStart ∧
      c.frameStart ∉ bytes.tail
  | .invalidArgument => True

/-- The invariant of the machine: legal parameters, a decoder state of the table of R25, outputs of the
spec's forms. -/
structure State.Inv (s : State) : Prop where
  legal   : s.cfg.Legal
  shape   : s.dec.Shape
  events  : ∀ e ∈ s.events, e.Ok s.cfg
  results : ∀ r ∈ s.results, r.Ok s.cfg

/-- The column `event` of the decode map (30_encoding.md R65): what a byte of a class may output. -/
def MayOutput : ByteClass → Event → Prop
  | .badlen, e => e = .error .badLength
  | .badesc, e => e = .error .badEscape
  | .unescStart, e | .unescEsc, e | .data, e => e = .none ∨ ∃ id payload, e = .message id payload
  | .sof, e | .ignore, e | .len, e | .esc, e => e = .none

/-- A request that some interface of the spec can carry: an ENCODE request has its identifier (R69), a
RESET has no operands (R180), fed bytes may be any (R66). -/
def Carried (r : Request) : Prop :=
  match r.format with
  | .encodeRequest => 4 ≤ r.bytes.length
  | .reset => r.bytes = []
  | .feedByte | .feedRequest | .wireToken => True

/-- The token that carries a byte of the identifier-and-payload region (R62). -/
def tokenOf (c : Config) (x : Byte) : Instr :=
  if x = c.frameStart then .tokEscStart
  else if x = c.escape then .tokEscEsc
  else .tokLit x

/-- The tokens of a frame, in wire order (R60, R61). -/
def frameTokens (c : Config) (id : Ident) (payload : List Byte) : List Instr :=
  .tokSof :: .tokLen (BitVec.ofNat 4 (payload.length + 4)) :: (region id payload).map (tokenOf c)

/-- `n` steps of the machine. -/
def runSteps (n : Nat) (s : State) : Host.Outcome State Fault Refusal := core.run n s

/-- Operations one after the other, as long as each answers a next state. -/
def execAll : List Instr → State → Host.Outcome State Fault Refusal
  | [], s => .next s
  | i :: is, s =>
    match exec i s with
    | .next t => execAll is t
    | .fault f => .fault f
    | .refused r => .refused r

end Sys2Proof.Machine
end

