-- ==== Sys2Proof/WellFormed.lean ====
section
/-! DEFINITION. Which operations are well formed: the operand and state conditions of their rows in
spec/opcode_table.json. -/

namespace Sys2Proof

open Machine (IsLength)

/-- `i` is an operation that the block can be reading under `c` in context `x`: a FEED row is the one that
R65 selects; a token stands where a frame can hold it, with an operand it can carry (R61, R62, R76).
ENCODE, FEED and RESET take any operand in any state (R69, R70, R180). -/
def WellFormed (c : Config) (x : Context) : Instr → Bool
  | .feedSof => true
  | .feedIgnore b => classify c x b = .ignore
  | .feedLen b => classify c x b = .len
  | .feedBadlen b => classify c x b = .badlen
  | .feedUnescStart => classify c x c.escapedStart = .unescStart
  | .feedUnescEsc => classify c x c.escapedEscape = .unescEsc
  | .feedBadesc b => classify c x b = .badesc
  | .feedEsc => classify c x c.escape = .esc
  | .feedData b => classify c x b = .data
  | .encode _ _ => true
  | .feed _ => true
  | .reset => true
  | .tokSof => true
  | .tokLen l => x.st = .expectLength ∧ IsLength (l.setWidth 8)
  | .tokEscStart => x.st ≠ .expectLength ∧ x.pending = false
  | .tokEscEsc => x.st ≠ .expectLength ∧ x.pending = false
  | .tokLit d => x.st ≠ .expectLength ∧ x.pending = false ∧ d ≠ c.frameStart ∧ d ≠ c.escape

end Sys2Proof
end

