-- ==== Sys2Proof/Certificates/Slice0/Obligations.lean ====
section
/-! DEFINITION. The statements about the model. -/

open Sys2Proof Sys2Proof.Machine

/-! ### Reset -/

/-- At power-on, and after RESET, every field of the decoder state has its reset value (R32); RESET does not
change the constants (R29). That RESET leaves the results the encoder has already put out is the model's
choice (DESIGN CHOICE, log 19). -/
def Obligations.ResetGivesEveryFieldItsValue : Prop :=
  (State.reset.dec.st = .waiting ∧ State.reset.dec.buf = [] ∧ State.reset.dec.target = none ∧
    State.reset.dec.pending = false) ∧
  ∀ s : State, s.cfg.Legal → ∃ t, exec .reset s = .next t ∧
    t.dec.st = .waiting ∧ t.dec.buf = [] ∧ t.dec.target = none ∧ t.dec.pending = false ∧
    t.cfg = s.cfg ∧ t.results = s.results

/-- RESET puts the decoder in `Waiting0` from any state and outputs no event (R180); a substitute that comes
after it is a byte in `Waiting`, which is ignored. That it leaves the pending requests and the outputs
already produced is the model's choice (DESIGN CHOICE, log 19). -/
def Obligations.ResetDiscardsTheFrameSilently : Prop :=
  ∀ s : State, s.cfg.Legal →
    exec .reset s = .next { s with dec := ⟨.waiting, [], none, false⟩ } ∧
    ∀ b ∈ [s.cfg.escapedStart, s.cfg.escapedEscape],
      exec (.feed b) { s with dec := ⟨.waiting, [], none, false⟩ } =
        .next { s with dec := ⟨.waiting, [], none, false⟩, events := s.events ++ [.none] }

/-- The machine at reset meets the invariant. Its parameters there are the spec's default (UNVERIFIED, log 2),
and its lists of events and results are empty, the model's choice (DESIGN CHOICE, log 4). -/
def Obligations.ResetMeetsTheInvariant : Prop := State.reset.Inv

/-! ### The decode map -/

/-- R65: every byte in every state of R25 falls in exactly one class, by the columns `st`, `pending` and
`b` of the table; the class selects the transition, that of its row; the event is one of its column. -/
def Obligations.DecodeMapSelectsOneRow : Prop :=
  ∀ (s : State) (b : Byte), s.cfg.Legal → s.dec.Shape →
    (classify s.cfg s.dec.context b = .sof ↔ b = s.cfg.frameStart) ∧
    (classify s.cfg s.dec.context b = .ignore ↔
      s.dec.st = .waiting ∧ s.dec.pending = false ∧ b ≠ s.cfg.frameStart) ∧
    (classify s.cfg s.dec.context b = .len ↔
      s.dec.st = .expectLength ∧ s.dec.pending = false ∧ 0x04 ≤ b.toNat ∧ b.toNat ≤ 0x0C) ∧
    (classify s.cfg s.dec.context b = .badlen ↔
      s.dec.st = .expectLength ∧ s.dec.pending = false ∧ b ≠ s.cfg.frameStart ∧
        (b.toNat < 0x04 ∨ 0x0C < b.toNat)) ∧
    (classify s.cfg s.dec.context b = .unescStart ↔
      s.dec.st = .inPayload ∧ s.dec.pending = true ∧ b = s.cfg.escapedStart) ∧
    (classify s.cfg s.dec.context b = .unescEsc ↔
      s.dec.st = .inPayload ∧ s.dec.pending = true ∧ b = s.cfg.escapedEscape) ∧
    (classify s.cfg s.dec.context b = .badesc ↔
      s.dec.st = .inPayload ∧ s.dec.pending = true ∧ b ≠ s.cfg.frameStart ∧
        b ≠ s.cfg.escapedStart ∧ b ≠ s.cfg.escapedEscape) ∧
    (classify s.cfg s.dec.context b = .esc ↔
      s.dec.st = .inPayload ∧ s.dec.pending = false ∧ b = s.cfg.escape) ∧
    (classify s.cfg s.dec.context b = .data ↔
      s.dec.st = .inPayload ∧ s.dec.pending = false ∧ b ≠ s.cfg.frameStart ∧ b ≠ s.cfg.escape) ∧
    exec (.feed b) s = exec ((classify s.cfg s.dec.context b).row b) s ∧
    ∃ t e, exec (.feed b) s = .next t ∧ t.events = s.events ++ [e] ∧
      MayOutput (classify s.cfg s.dec.context b) e

/-- A FEED named by its row completes in every state, and is the FEED of the one byte its request carries,
also where R65 selects another row there. The second part is the model's reading (log 6). -/
def Obligations.RowIsTheFeedOfItsByte : Prop :=
  ∀ (s : State) (k : ByteClass) (b x : Byte), s.cfg.Legal → (encode s.cfg (k.row b)).bytes = [x] →
    exec (k.row b) s = .next (s.feed x) ∧ exec (.feed x) s = .next (s.feed x)

/-! ### The transitions -/

/-- R121: `FRAME_START` in any state starts a new frame, with no event and never an error. -/
def Obligations.FrameStartBeginsAFrameInAnyState : Prop :=
  ∀ s : State, s.cfg.Legal →
    exec .feedSof s =
      .next { s with dec := ⟨.expectLength, [], none, false⟩, events := s.events ++ [.none] } ∧
    exec (.feed s.cfg.frameStart) s =
      .next { s with dec := ⟨.expectLength, [], none, false⟩, events := s.events ++ [.none] }

/-- R122: in `Waiting` every byte other than `FRAME_START` is discarded. -/
def Obligations.WaitingDiscardsTheByte : Prop :=
  ∀ (s : State) (b : Byte), s.cfg.Legal → s.dec.st = .waiting → b ≠ s.cfg.frameStart →
    exec (.feedIgnore b) s = .next { s with events := s.events ++ [.none] } ∧
    exec (.feed b) s = .next { s with events := s.events ++ [.none] }

/-- R123: a LENGTH byte in 4..12 opens the region, and the target is the byte itself. -/
def Obligations.LengthByteOpensTheRegion : Prop :=
  ∀ (s : State) (b : Byte), s.cfg.Legal → s.dec.st = .expectLength → 4 ≤ b.toNat → b.toNat ≤ 12 →
    exec (.feedLen b) s =
      .next { s with dec := ⟨.inPayload, [], some b.toNat, false⟩, events := s.events ++ [.none] } ∧
    exec (.feed b) s =
      .next { s with dec := ⟨.inPayload, [], some b.toNat, false⟩, events := s.events ++ [.none] }

/-- R124: a LENGTH byte outside 4..12 is `BadLength`; the decoder goes to `Waiting0` and does not stop. -/
def Obligations.BadLengthGoesToWaiting : Prop :=
  ∀ (s : State) (b : Byte), s.cfg.Legal → s.dec.st = .expectLength → b ≠ s.cfg.frameStart →
    (b.toNat < 4 ∨ 12 < b.toNat) →
    exec (.feedBadlen b) s =
      .next { s with dec := ⟨.waiting, [], none, false⟩, events := s.events ++ [.error .badLength] } ∧
    exec (.feed b) s =
      .next { s with dec := ⟨.waiting, [], none, false⟩, events := s.events ++ [.error .badLength] }

/-- R125: after an escape, `ESCAPED_START` pushes a `FRAME_START` byte and clears the flag, also where it
equals `ESCAPE`. -/
def Obligations.EscapedStartPushesFrameStart : Prop :=
  ∀ s : State, s.cfg.Legal → s.dec.st = .inPayload → s.dec.pending = true →
    exec .feedUnescStart s =
      .next { s with dec := (push s.cfg s.dec s.cfg.frameStart).1,
                     events := s.events ++ [(push s.cfg s.dec s.cfg.frameStart).2] } ∧
    exec (.feed s.cfg.escapedStart) s =
      .next { s with dec := (push s.cfg s.dec s.cfg.frameStart).1,
                     events := s.events ++ [(push s.cfg s.dec s.cfg.frameStart).2] } ∧
    (push s.cfg s.dec s.cfg.frameStart).1.pending = false

/-- R126: after an escape, `ESCAPED_ESCAPE` pushes an `ESCAPE` byte and clears the flag. -/
def Obligations.EscapedEscapePushesEscape : Prop :=
  ∀ s : State, s.cfg.Legal → s.dec.st = .inPayload → s.dec.pending = true →
    exec .feedUnescEsc s =
      .next { s with dec := (push s.cfg s.dec s.cfg.escape).1,
                     events := s.events ++ [(push s.cfg s.dec s.cfg.escape).2] } ∧
    exec (.feed s.cfg.escapedEscape) s =
      .next { s with dec := (push s.cfg s.dec s.cfg.escape).1,
                     events := s.events ++ [(push s.cfg s.dec s.cfg.escape).2] } ∧
    (push s.cfg s.dec s.cfg.escape).1.pending = false

/-- R127: any other byte after an escape is `BadEscape`; the frame in progress is discarded. -/
def Obligations.BadEscapeGoesToWaiting : Prop :=
  ∀ (s : State) (b : Byte), s.cfg.Legal → s.dec.st = .inPayload → s.dec.pending = true →
    b ≠ s.cfg.frameStart → b ≠ s.cfg.escapedStart → b ≠ s.cfg.escapedEscape →
    exec (.feedBadesc b) s =
      .next { s with dec := ⟨.waiting, [], none, false⟩, events := s.events ++ [.error .badEscape] } ∧
    exec (.feed b) s =
      .next { s with dec := ⟨.waiting, [], none, false⟩, events := s.events ++ [.error .badEscape] }

/-- R128: an escape marker sets `pending`; `buf` and `target` are unchanged. -/
def Obligations.EscapeSetsPending : Prop :=
  ∀ s : State, s.cfg.Legal → s.dec.st = .inPayload → s.dec.pending = false →
    exec .feedEsc s =
      .next { s with dec := ⟨.inPayload, s.dec.buf, s.dec.target, true⟩,
                     events := s.events ++ [.none] } ∧
    exec (.feed s.cfg.escape) s =
      .next { s with dec := ⟨.inPayload, s.dec.buf, s.dec.target, true⟩,
                     events := s.events ++ [.none] }

/-- R129: any other byte in the region is pushed unchanged, substitutes and lengths among them. -/
def Obligations.DataBytePushesItself : Prop :=
  ∀ (s : State) (b : Byte), s.cfg.Legal → s.dec.st = .inPayload → s.dec.pending = false →
    b ≠ s.cfg.frameStart → b ≠ s.cfg.escape →
    exec (.feedData b) s =
      .next { s with dec := (push s.cfg s.dec b).1, events := s.events ++ [(push s.cfg s.dec b).2] } ∧
    exec (.feed b) s =
      .next { s with dec := (push s.cfg s.dec b).1, events := s.events ++ [(push s.cfg s.dec b).2] } ∧
    (push s.cfg s.dec b).1.pending = false

/-- R130: PUSH appends one byte and completes the frame exactly when the buffer reaches the target; no
frame completes before its fourth byte, and the buffer never exceeds 12 bytes. -/
def Obligations.PushCompletesExactlyAtTheTarget : Prop :=
  ∀ (c : Config) (d : DecoderState) (x : Byte) (t : Nat), d.Shape → d.st = .inPayload →
    d.target = some t →
    (d.buf.length + 1 = t →
      push c d x = (⟨.waiting, [], none, false⟩, message c (d.buf ++ [x])) ∧
        4 ≤ (d.buf ++ [x]).length) ∧
    (d.buf.length + 1 ≠ t →
      push c d x = (⟨.inPayload, d.buf ++ [x], some t, false⟩, .none) ∧ (d.buf ++ [x]).length < t) ∧
    (d.buf ++ [x]).length ≤ 12

/-- R131 and R43: on completion the identifier is the little-endian value of the first four bytes, and the
payload is the rest in order, 0 to 8 bytes. -/
def Obligations.MessageSplitsTheBufferLittleEndian : Prop :=
  ∀ (c : Config) (b0 b1 b2 b3 : Byte) (payload : List Byte), payload.length ≤ 8 →
    ∃ raw : Ident,
      raw = b0.setWidth 32 ||| (b1.setWidth 32 <<< 8) ||| (b2.setWidth 32 <<< 16) |||
        (b3.setWidth 32 <<< 24) ∧
      raw.toNat = b0.toNat + 2 ^ 8 * b1.toNat + 2 ^ 16 * b2.toNat + 2 ^ 24 * b3.toNat ∧
      message c (b0 :: b1 :: b2 :: b3 :: payload) = applyPolicy c.idPolicy raw payload

/-- R132: the policy matters only where bits 31..29 are set; a completing FEED leaves `Waiting0` under
every policy. -/
def Obligations.PolicyActsOnlyOnTopBits : Prop :=
  (∀ (p : IdPolicy) (raw : Ident) (payload : List Byte), raw.toNat < 2 ^ 29 →
    applyPolicy p raw payload = .message raw payload) ∧
  (∀ (raw : Ident) (payload : List Byte), 2 ^ 29 ≤ raw.toNat →
    applyPolicy .pass raw payload = .message raw payload ∧
    applyPolicy .mask raw payload = .message (raw &&& 0x1FFFFFFF) payload ∧
    applyPolicy .drop raw payload = .none) ∧
  ∀ (c : Config) (d : DecoderState) (x : Byte), d.target = some (d.buf.length + 1) →
    push c d x = (⟨.waiting, [], none, false⟩, message c (d.buf ++ [x]))

/-- R134: a FEED outputs an event other than `None` only where it completes a frame or detects a protocol
error, and these are the places. -/
def Obligations.OnlyCompletionOrErrorSpeaks : Prop :=
  ∀ (s : State) (b : Byte), s.cfg.Legal → s.dec.Shape →
    ∃ t e, exec (.feed b) s = .next t ∧ t.events = s.events ++ [e] ∧
      (e ≠ .none →
        (e = .error .badLength ∧ s.dec.st = .expectLength ∧ b ≠ s.cfg.frameStart ∧
          (b.toNat < 4 ∨ 12 < b.toNat) ∧ t.dec = .waiting0) ∨
        (e = .error .badEscape ∧ s.dec.st = .inPayload ∧ s.dec.pending = true ∧
          b ≠ s.cfg.frameStart ∧ b ≠ s.cfg.escapedStart ∧ b ≠ s.cfg.escapedEscape ∧
          t.dec = .waiting0) ∨
        ((∃ id payload, e = .message id payload ∧ payload.length = s.dec.buf.length + 1 - 4) ∧
          s.dec.st = .inPayload ∧ s.dec.target = some (s.dec.buf.length + 1) ∧ t.dec = .waiting0))

/-- R24: the flag is set by an `ESCAPE` byte in `InPayload` with the flag clear and by nothing else; the
next byte clears it in every case; a return to `Waiting` and RESET leave it clear. -/
def Obligations.PendingIsSetOnlyByAnEscape : Prop :=
  ∀ (s : State) (b : Byte), s.cfg.Legal → s.dec.Shape →
    ∃ t, exec (.feed b) s = .next t ∧
      (t.dec.pending = true ↔
        s.dec.st = .inPayload ∧ s.dec.pending = false ∧ b = s.cfg.escape) ∧
      t.dec.pending = pendingAfter (classify s.cfg s.dec.context b) s.dec.pending ∧
      (t.dec.st = .waiting → t.dec.pending = false) ∧
      ∃ u, exec .reset t = .next u ∧ u.dec.pending = false

/-! ### The encoder -/

/-- R100: ENCODE answers the frame, written out, where the payload has at most 8 bytes and identifier bits
31..29 are zero, and `InvalidArgument` elsewhere; nothing else changes. -/
def Obligations.EncodeBuildsTheFrame : Prop :=
  ∀ (s : State) (id : Ident) (payload : List Byte), s.cfg.Legal →
    (payload.length ≤ 8 ∧ id.extractLsb' 29 3 = 0 →
      exec (.encode id payload) s =
        .next { s with results := s.results ++ [.ok (s.cfg.frameStart ::
          BitVec.ofNat 8 (payload.length + 4) ::
          ([id.extractLsb' 0 8, id.extractLsb' 8 8, id.extractLsb' 16 8, id.extractLsb' 24 8] ++
            payload).flatMap fun x =>
              if x = s.cfg.frameStart then [s.cfg.escape, s.cfg.escapedStart]
              else if x = s.cfg.escape then [s.cfg.escape, s.cfg.escapedEscape]
              else [x])] }) ∧
    (8 < payload.length ∨ id.extractLsb' 29 3 ≠ 0 →
      exec (.encode id payload) s = .next { s with results := s.results ++ [.invalidArgument] })

/-- R101: a payload longer than 8 bytes is `InvalidArgument` whatever the bytes and the identifier; lengths
0 to 8 are accepted. -/
def Obligations.EncodeChecksThePayloadLength : Prop :=
  ∀ (s : State) (id : Ident) (payload : List Byte), s.cfg.Legal →
    (8 < payload.length →
      exec (.encode id payload) s = .next { s with results := s.results ++ [.invalidArgument] }) ∧
    (payload.length ≤ 8 → id.toNat < 2 ^ 29 → ∃ bytes,
      exec (.encode id payload) s = .next { s with results := s.results ++ [.ok bytes] })

/-- R102: an identifier with any of bits 31, 30, 29 set is `InvalidArgument`; every identifier below 2^29
is accepted. -/
def Obligations.EncodeChecksTheIdentifier : Prop :=
  ∀ (s : State) (id : Ident) (payload : List Byte), s.cfg.Legal →
    (id.getLsbD 31 = true ∨ id.getLsbD 30 = true ∨ id.getLsbD 29 = true →
      exec (.encode id payload) s = .next { s with results := s.results ++ [.invalidArgument] }) ∧
    (id.toNat < 2 ^ 29 → payload.length ≤ 8 → ∃ bytes,
      exec (.encode id payload) s = .next { s with results := s.results ++ [.ok bytes] })

/-- R104: where both checks fail, ENCODE raises one `InvalidArgument`, the same one as for either cause
alone. -/
def Obligations.BothCausesGiveOneInvalidArgument : Prop :=
  ∀ (s : State) (id id' : Ident) (payload payload' : List Byte), s.cfg.Legal →
    8 < payload.length → 2 ^ 29 ≤ id.toNat → payload'.length ≤ 8 → id'.toNat < 2 ^ 29 →
    exec (.encode id payload) s = .next { s with results := s.results ++ [.invalidArgument] } ∧
    exec (.encode id payload) s = exec (.encode id' payload) s ∧
    exec (.encode id payload) s = exec (.encode id payload') s

/-- R105: ENCODE is a pure function of its operands and the constants: its result is the same in every
state, and it changes nothing but the output. -/
def Obligations.EncodeIsPure : Prop :=
  ∀ (c : Config) (id : Ident) (payload : List Byte), c.Legal →
    ∃ r, ∀ s : State, s.cfg = c →
      exec (.encode id payload) s = .next { s with results := s.results ++ [r] }

/-- R64: the length of an encoded frame is `2 + (4 + n) + m`, from 6 to 26 bytes, and both ends are reached;
where both markers are above `0x1F` it is at most 25, reached under the default constants (log 2). -/
def Obligations.EncodedFrameLength : Prop :=
  (∀ (c : Config) (id : Ident) (payload : List Byte), c.Legal → payload.length ≤ 8 → id.toNat < 2 ^ 29 →
    ∃ f m, encodeFrame c id payload = .ok f ∧
      m = (idLe32 id ++ payload).countP (fun x => x = c.frameStart ∨ x = c.escape) ∧
      f.length = 2 + (4 + payload.length) + m ∧ 6 ≤ f.length ∧ f.length ≤ 26 ∧
      (0x1F < c.frameStart.toNat → 0x1F < c.escape.toNat → m ≤ 11 ∧ f.length ≤ 25)) ∧
  (∃ c id payload f, c.Legal ∧ encodeFrame c id payload = .ok f ∧ f.length = 6) ∧
  (∃ c id payload f, c.Legal ∧ encodeFrame c id payload = .ok f ∧ f.length = 26) ∧
  ∃ id payload f, encodeFrame Config.standard id payload = .ok f ∧ f.length = 25

/-- R67: in the bytes of one encoded frame the value `FRAME_START` occurs at offset 0 and nowhere else. -/
def Obligations.FrameStartOccursOnlyAtOffsetZero : Prop :=
  ∀ (c : Config) (id : Ident) (payload f : List Byte) (k : Nat), c.Legal → encodeFrame c id payload = .ok f →
    (f[k]? = some c.frameStart ↔ k = 0)

/-- The encoder and the decoder share no state: an ENCODE does not change the decoder or its events, an
operation of the decoder does not change a result, and the two give the same state in either order (R50).
That a class row is an operation in every state, and a token an operation, is the model's reading (DEDUCED,
log 6, 7); that RESET leaves the results already put out is its choice (DESIGN CHOICE, log 19). -/
def Obligations.EncodeCommutesWithTheDecoder : Prop :=
  ∀ (s : State) (id : Ident) (payload : List Byte) (i : Instr), s.cfg.Legal →
    (∀ id' payload', i ≠ .encode id' payload') →
    ∃ t t' u, exec (.encode id payload) s = .next t ∧ exec i t = .next u ∧
      exec i s = .next t' ∧ exec (.encode id payload) t' = .next u ∧
      t.dec = s.dec ∧ t.events = s.events ∧ t'.results = s.results ∧ u.results = t.results

/-! ### Tokens -/

/-- A token is the FEEDs of its bytes in order (R75, R62): its meaning completes in every state, and is
those FEEDs one after the other. That a token is an operation is the model's reading (log 7). -/
def Obligations.TokensFeedTheirBytes : Prop :=
  ∀ (s : State), s.cfg.Legal →
    (∃ t, exec (.feed s.cfg.frameStart) s = .next t ∧ exec .tokSof s = .next t) ∧
    (∀ l : BitVec 4, ∃ t, exec (.feed (l.setWidth 8)) s = .next t ∧ exec (.tokLen l) s = .next t) ∧
    (∃ t u, exec (.feed s.cfg.escape) s = .next t ∧ exec (.feed s.cfg.escapedStart) t = .next u ∧
      exec .tokEscStart s = .next u) ∧
    (∃ t u, exec (.feed s.cfg.escape) s = .next t ∧ exec (.feed s.cfg.escapedEscape) t = .next u ∧
      exec .tokEscEsc s = .next u) ∧
    (∀ d : Byte, ∃ t, exec (.feed d) s = .next t ∧ exec (.tokLit d) s = .next t)

/-- A frame in progress takes one escape token as one byte of the region, under a free choice of legal
parameters (R62, R125, R126, R128). That a token is executed as an operation is the model's reading
(DEDUCED, log 7). -/
def Obligations.EscapeTokensPushOneByte : Prop :=
  ∀ s : State, s.cfg.Legal → s.dec.st = .inPayload → s.dec.pending = false →
    exec .tokEscStart s =
      .next { s with dec := (push s.cfg s.dec s.cfg.frameStart).1,
                     events := s.events ++ [.none, (push s.cfg s.dec s.cfg.frameStart).2] } ∧
    exec .tokEscEsc s =
      .next { s with dec := (push s.cfg s.dec s.cfg.escape).1,
                     events := s.events ++ [.none, (push s.cfg s.dec s.cfg.escape).2] }

/-- R60 to R63: the frame that ENCODE builds is its tokens written one after the other, and every token of
the region is well formed where it stands. -/
def Obligations.FrameIsItsTokens : Prop :=
  ∀ (c : Config) (id : Ident) (payload : List Byte), c.Legal → Encodable id payload →
    encodeFrame c id payload = .ok ((frameTokens c id payload).flatMap fun i => (encode c i).bytes) ∧
    WellFormed c ⟨.expectLength, false⟩ (.tokLen (BitVec.ofNat 4 (payload.length + 4))) = true ∧
    ∀ x ∈ region id payload, WellFormed c ⟨.inPayload, false⟩ (tokenOf c x) = true

/-! ### Frames: what an operation leaves unchanged -/

/-- Every FEED, by class, by request or by token, completes in every state and changes nothing but the
decoder state and the event output: the parameters, the pending requests and the encoder's results stay
(R27, R48), and one event comes out for each byte fed (R71). That a class row is an operation in every
state, and a token an operation of one FEED for each byte, is the model's reading (DEDUCED, log 6, 7). -/
def Obligations.FeedFrame : Prop :=
  ∀ (s : State) (i : Instr), s.cfg.Legal → (∀ id payload, i ≠ .encode id payload) → i ≠ .reset →
    ∃ t es, exec i s = .next t ∧ t.cfg = s.cfg ∧ t.requests = s.requests ∧ t.results = s.results ∧
      t.events = s.events ++ es ∧ es.length = (encode s.cfg i).bytes.length

/-- R27: only FEED and RESET write the decoder state. ENCODE leaves every field of it as it was, and so
does a step that performs no operation (DEDUCED, log 5). -/
def Obligations.OnlyFeedAndResetWriteTheDecoder : Prop :=
  ∀ s t : State, step s = .next t → t.dec ≠ s.dec →
    ∃ i rest, s.fetch = .fetched i rest ∧ exec i { s with requests := rest } = .next t ∧
      ∀ id payload, i ≠ .encode id payload

/-- R29: the constants cannot be written: no step changes them. -/
def Obligations.NoStepWritesTheConstants : Prop :=
  ∀ s t : State, step s = .next t → t.cfg = s.cfg

/-! ### Decoding and stepping -/

/-- Words written out from the spec's encodings decode to their operations under the default constants
(log 2, 10): the fed byte `FF` starts a frame (R65), the byte `00` after reset is ignored (R65), `FE FE`
and `FE FD` are the escape tokens (R62). That the 48-bit word is an ENCODE request, its identifier first and
least significant byte first, is the model's byte form of such a request (DESIGN CHOICE, log 9). -/
def Obligations.SampleWordsDecode : Prop :=
  decodeTableWord 8 0xFF = some .feedSof ∧
  decodeTableWord 8 0x00 = some (.feedIgnore 0x00) ∧
  decodeTableWord 16 0xFEFE = some .tokEscStart ∧
  decodeTableWord 16 0xFEFD = some .tokEscEsc ∧
  decodeTableWord 0 0 = some .reset ∧
  decodeTableWord 48 0xFFAA00000123 = some (.encode 0x123 [0xAA, 0xFF]) ∧
  decode Config.standard ⟨.expectLength, false⟩ ⟨.feedByte, [0x06]⟩ = .instr (.feedLen 0x06) [] ∧
  decode Config.standard ⟨.expectLength, false⟩ ⟨.feedByte, [0x0D]⟩ = .instr (.feedBadlen 0x0D) [] ∧
  decode Config.standard ⟨.inPayload, false⟩ ⟨.feedByte, [0xFE]⟩ = .instr .feedEsc [] ∧
  decode Config.standard ⟨.inPayload, true⟩ ⟨.feedByte, [0xFE]⟩ = .instr .feedUnescStart [] ∧
  decode Config.standard ⟨.inPayload, true⟩ ⟨.feedByte, [0xFD]⟩ = .instr .feedUnescEsc [] ∧
  decode Config.standard ⟨.inPayload, true⟩ ⟨.feedByte, [0x00]⟩ = .instr (.feedBadesc 0x00) [] ∧
  decode Config.standard ⟨.inPayload, false⟩ ⟨.feedByte, [0xFD]⟩ = .instr (.feedData 0xFD) [] ∧
  decode Config.standard ⟨.expectLength, false⟩ ⟨.wireToken, [0x06]⟩ = .instr (.tokLen 6) [] ∧
  decode Config.standard ⟨.inPayload, false⟩ ⟨.wireToken, [0x06]⟩ = .instr (.tokLit 0x06) []

/-- Decoding gives back every well-formed operation from its request: every row of the opcode table, every
operand, every legal assignment of the constants, every decoder state. How wire bytes are grouped into tokens
and how an ENCODE request is written as bytes are the model's choices (DESIGN CHOICE, log 8, 9). -/
def Obligations.DecodeOfEncode : Prop :=
  ∀ (c : Config) (x : Context) (i : Instr), c.Legal → WellFormed c x i = true →
    decode c x (encode c i) = .instr i []

/-- What the decoder reads is well formed there, and no byte of the request is lost: the bytes of the
operation and the bytes left are the bytes of the request. The grouping of
wire bytes into tokens and the byte form of an ENCODE request are the model's (DESIGN CHOICE, log 8, 9). -/
def Obligations.DecodingLosesNoByte : Prop :=
  ∀ (c : Config) (x : Context) (r : Request) (i : Instr) (more : List Byte), c.Legal →
    decode c x r = .instr i more →
    WellFormed c x i = true ∧ (encode c i).bytes ++ more = r.bytes

/-- A step performs the operation that the first request decodes to, in the state with that operation taken
from the requests; what is left of its group stays first (R51, R75). -/
def Obligations.StepPerformsTheDecodedOperation : Prop :=
  ∀ (s : State) (r : Request) (rest : List Request) (i : Instr) (more : List Byte),
    s.requests = r :: rest → decode s.cfg s.dec.context r = .instr i more →
    step s = exec i { s with requests := if more = [] then rest else ⟨r.format, more⟩ :: rest }

/-- A step with nothing requested changes nothing; a group of fed bytes with none left is dropped; a request
of no format is refused by name. The first is DEDUCED (log 5), the last the model's own (log 9). -/
def Obligations.StepWithoutAnOperation : Prop :=
  (∀ s : State, s.requests = [] → step s = .next s) ∧
  (∀ (s : State) (f : Format) (rest : List Request),
    f ∈ [Format.feedByte, .feedRequest, .wireToken] → s.requests = ⟨f, []⟩ :: rest →
    step s = .next { s with requests := rest }) ∧
  (∀ (s : State) (bs : List Byte) (rest : List Request), bs.length < 4 →
    s.requests = ⟨.encodeRequest, bs⟩ :: rest →
    step s = .refused (.badRequest .encodeWithoutIdentifier)) ∧
  (∀ (s : State) (b : Byte) (bs : List Byte) (rest : List Request),
    s.requests = ⟨.reset, b :: bs⟩ :: rest → step s = .refused (.badRequest .resetWithOperands))

/-- The machine gives a configuration a meaning exactly where it meets every constraint of R8, and refuses it
by name elsewhere, whatever the operation. That the refusal comes at each operation is the model's reading
(DEDUCED, log 18); that every operation completes elsewhere rests on R120, R139 and, for class rows and
tokens, on log 6 and 7 (DEDUCED). -/
def Obligations.IllegalConfigurationIsRefused : Prop :=
  ∀ (s : State) (i : Instr),
    (¬(4 ≤ s.cfg.frameStart.toNat ∧ s.cfg.frameStart.toNat ≤ 12) ∧
      ¬(4 ≤ s.cfg.escape.toNat ∧ s.cfg.escape.toNat ≤ 12) ∧
      (s.cfg.frameStart = 0xFF ∨ s.cfg.escape = 0xFF) ∧
      s.cfg.frameStart ≠ s.cfg.escape ∧
      s.cfg.escapedStart ≠ s.cfg.escapedEscape ∧
      s.cfg.escapedStart ≠ s.cfg.frameStart ∧ s.cfg.escapedEscape ≠ s.cfg.frameStart →
        ∃ t, exec i s = .next t) ∧
    ((4 ≤ s.cfg.frameStart.toNat ∧ s.cfg.frameStart.toNat ≤ 12) ∨
      (4 ≤ s.cfg.escape.toNat ∧ s.cfg.escape.toNat ≤ 12) ∨
      (s.cfg.frameStart ≠ 0xFF ∧ s.cfg.escape ≠ 0xFF) ∨
      s.cfg.frameStart = s.cfg.escape ∨
      s.cfg.escapedStart = s.cfg.escapedEscape ∨
      s.cfg.escapedStart = s.cfg.frameStart ∨ s.cfg.escapedEscape = s.cfg.frameStart →
        exec i s = .refused .illegalConfiguration)

/-! ### Invariants and runs -/

/-- Every operation completes (R120, R100, R180) and keeps the table of reachable decoder states (R25), and with
it the bound of 12 bytes on the buffer (R22). That a class row is an operation in every state, and a token
an operation, is the model's reading (DEDUCED, log 6, 7). -/
def Obligations.FeedKeepsTheTableOfStates : Prop :=
  ∀ (s : State) (i : Instr), s.cfg.Legal → s.dec.Shape →
    ∃ t, exec i s = .next t ∧ t.dec.Shape ∧ t.dec.buf.length ≤ 12

/-- Every step keeps the invariant: legal parameters, a decoder state of the table of R25, events of the
forms of R71 with the policy's identifiers (R132), results of the forms of R72, 6 to 26 bytes with
`FRAME_START` only first (R64, R67). -/
def Obligations.StepKeepsTheInvariant : Prop :=
  ∀ s t : State, s.Inv → step s = .next t → t.Inv

/-- No input makes the machine stop (R139). Under legal parameters, whatever decoder state it is in and
whatever the host requests, a run of any length answers a next state. The run rests on the model's reading
of idle steps (DEDUCED, log 5) and of wire bytes requested as tokens (log 7, 8). -/
def Obligations.NoInputStopsTheMachine : Prop :=
  ∀ (s : State) (n : Nat), s.cfg.Legal → (∀ r ∈ s.requests, Carried r) →
    ∃ t, runSteps n s = .next t

/-- R187: bytes fed in `Waiting` before the next `FRAME_START` are discarded without notice: no event other
than `None`, and no change of the decoder state. -/
def Obligations.BytesOutsideAFrameAreDiscarded : Prop :=
  ∀ (s : State) (bs : List Byte) (rest : List Request), s.cfg.Legal → s.dec.st = .waiting →
    s.cfg.frameStart ∉ bs → s.requests = ⟨.feedRequest, bs⟩ :: rest → bs ≠ [] →
    runSteps bs.length s =
      .next { s with requests := rest, events := s.events ++ List.replicate bs.length .none }

/-- R166: no error occurs in `Waiting`, every error leads to `Waiting0`, and a sequence without
`FRAME_START` after an error gives no event. -/
def Obligations.ErrorsNeedAFrameStartBetween : Prop :=
  ∀ (s t : State) (b : Byte) (e : ProtocolError), exec (.feed b) s = .next t →
    t.events = s.events ++ [.error e] →
    s.dec.st ≠ .waiting ∧ t.dec = .waiting0 ∧
    ∀ bs : List Byte, s.cfg.frameStart ∉ bs →
      feedAll s.cfg t.dec bs = (.waiting0, List.replicate bs.length .none)

/-- R52: the events depend only on the start state and the bytes fed, not on how the host groups them: the
FEED requests of any non-empty groups run to the state that the FEED of their concatenation runs to. -/
def Obligations.EventsDoNotDependOnGrouping : Prop :=
  ∀ (s : State) (groups : List (List Byte)) (rest : List Request), s.cfg.Legal →
    (∀ g ∈ groups, g ≠ []) → groups ≠ [] →
    ∃ t, runSteps groups.flatten.length
        { s with requests := groups.map (Request.mk .feedRequest) ++ rest } = .next t ∧
      runSteps groups.flatten.length
        { s with requests := ⟨.feedRequest, groups.flatten⟩ :: rest } = .next t ∧
      t = { s with requests := rest, dec := (feedAll s.cfg s.dec groups.flatten).1,
                   events := s.events ++ (feedAll s.cfg s.dec groups.flatten).2 }

/-- R136: the round trip. The bytes of an encoded frame, fed one at a time from any decoder state, give
exactly one event other than `None`, the message, on the last byte, and leave `Waiting0`; under every
legal assignment of the constants and every policy, also where the payload is all markers. -/
def Obligations.RoundTrip : Prop :=
  ∀ (s : State) (id : Ident) (payload : List Byte) (rest : List Request), s.cfg.Legal →
    id.toNat < 2 ^ 29 → payload.length ≤ 8 →
    ∃ f, exec (.encode id payload) s = .next { s with results := s.results ++ [.ok f] } ∧
      runSteps f.length { s with requests := ⟨.feedRequest, f⟩ :: rest } =
        .next { s with dec := ⟨.waiting, [], none, false⟩, requests := rest,
                       events := s.events ++ List.replicate (f.length - 1) .none ++
                         [.message id payload] }

/-- The same frame read token by token: one operation for the start, the length and each byte of the region
(R60, R61; log 7, 8). -/
def Obligations.RoundTripByTokens : Prop :=
  ∀ (s : State) (id : Ident) (payload : List Byte) (rest : List Request), s.cfg.Legal →
    Encodable id payload →
    runSteps (6 + payload.length)
        { s with requests := ⟨.wireToken, frame s.cfg id payload⟩ :: rest } =
      .next { s with dec := .waiting0, requests := rest,
                     events := s.events ++
                       List.replicate ((frame s.cfg id payload).length - 1) .none ++
                       [.message id payload] }

/-- R137: resynchronization. After any bytes, from any decoder state, a valid encoded frame gives its
message on its last byte and nothing else; what the bytes before it gave does not change. -/
def Obligations.Resynchronization : Prop :=
  ∀ (c : Config) (d : DecoderState) (before f : List Byte) (id : Ident) (payload : List Byte), c.Legal →
    encodeFrame c id payload = .ok f →
    feedAll c d (before ++ f) =
      (.waiting0, (feedAll c d before).2 ++ List.replicate (f.length - 1) .none ++
        [.message id payload])

/-- R66 (c): a frame cut short by a new `FRAME_START` is discarded with no event, wherever it is cut, and
the new frame is received. -/
def Obligations.TruncatedFrameIsSilent : Prop :=
  ∀ (c : Config) (d : DecoderState) (k : Nat) (f f' : List Byte) (id id' : Ident)
    (payload payload' : List Byte), c.Legal → encodeFrame c id payload = .ok f →
    encodeFrame c id' payload' = .ok f' → k < f.length →
    feedAll c d (f.take k ++ f') =
      (.waiting0, List.replicate (k + f'.length - 1) .none ++ [.message id' payload'])

/-! ### The port realisation -/

/-- R73: the numeric codes of events and results. -/
def Obligations.PortCodes : Prop :=
  eventKind .none = 0 ∧ (∀ id payload, eventKind (.message id payload) = 1) ∧
  eventKind (.error .badLength) = 2 ∧ eventKind (.error .badEscape) = 3 ∧
  (∀ e, (eventPorts e).evKind = eventKind e) ∧
  (∀ bytes, (resultPorts (.ok bytes)).encStatus = 0) ∧ (resultPorts .invalidArgument).encStatus = 1

/-- R74: what the output ports carry: the message's identifier, length and lanes, zero lanes from `ev_len`
on, and zeros where there is no message; the frame's count and lanes, and zeros on an error. -/
def Obligations.PortOutputsCarryTheResult : Prop :=
  (∀ (id : Ident) (payload : List Byte), payload.length ≤ 8 →
    (eventPorts (.message id payload)).evId = id ∧
    (eventPorts (.message id payload)).evLen.toNat = payload.length ∧
    ∀ i < 8, (eventPorts (.message id payload)).evData.extractLsb' (8 * i) 8 = payload.getD i 0) ∧
  (∀ e : Event, (∀ id payload, e ≠ .message id payload) →
    (eventPorts e).evId = 0 ∧ (eventPorts e).evLen = 0 ∧ (eventPorts e).evData = 0) ∧
  (∀ bytes : List Byte, bytes.length ≤ 26 →
    (resultPorts (.ok bytes)).encCount.toNat = bytes.length ∧
    ∀ k < 26, (resultPorts (.ok bytes)).encBytes.extractLsb' (8 * k) 8 = bytes.getD k 0) ∧
  (resultPorts .invalidArgument).encCount = 0 ∧ (resultPorts .invalidArgument).encBytes = 0

/-- R69: the payload that the request lanes carry: byte `i` is lane `i`, lanes from `req_len` on are ignored,
and a length above 8 is `InvalidArgument` whatever the lanes hold. -/
def Obligations.PortRequestCarriesThePayload : Prop :=
  ∀ (len : BitVec 4) (data data' : BitVec 64),
    (payloadLanes len data).length = len.toNat ∧
    (∀ i, i < len.toNat → i < 8 → (payloadLanes len data)[i]? = some (data.extractLsb' (8 * i) 8)) ∧
    ((∀ i < len.toNat, data.extractLsb' (8 * i) 8 = data'.extractLsb' (8 * i) 8) →
      payloadLanes len data = payloadLanes len data') ∧
    (8 < len.toNat → ∀ (c : Config) (id : Ident),
      encodeFrame c id (payloadLanes len data) = .invalidArgument)

/-- R21 to R24: the registers hold every decoder state of R25, whatever was in the cells they leave alone. -/
def Obligations.RegistersHoldEveryState : Prop :=
  ∀ (r : PortRegs) (d : DecoderState), d.Shape → (r.store d).abs = .ok d

/-- The codes R21 and R23 leave unused (93_implementation_defined.md I10), and a count above 12: a FEED on
registers that hold one faults by its name; RESET leaves any registers in `Waiting0`; where both are raised
in one step, the free order decides which of the two happens. The fault of the count, and that RESET does
not look at the registers it overwrites, are DEDUCED (log 16); the free order is log 13. -/
def Obligations.UnusedCodesFaultAndResetRecovers : Prop :=
  ∀ (c : Config) (r : PortRegs) (p : PortIn), c.Legal →
    (p.rst = false → p.fdValid = true →
      (r.st = 3 → portStep c r p = .fault .unusedStateCode) ∧
      (r.st ≠ 3 → r.target ∈ ([1, 2, 3, 13, 14, 15] : List (BitVec 4)) →
        portStep c r p = .fault .unusedTargetCode) ∧
      (r.st ≠ 3 → r.target ∉ ([1, 2, 3, 13, 14, 15] : List (BitVec 4)) → 12 < r.count.toNat →
        portStep c r p = .fault .unusedCountCode)) ∧
    (p.rst = true → p.fdValid = false → ∃ r' out, portStep c r p = .next (r', out) ∧ out.ev = none ∧
      r'.abs = .ok ⟨.waiting, [], none, false⟩) ∧
    (p.rst = true → p.fdValid = true → ∀ f, r.abs = .error f →
      if Config.resetFirst r.turn = true then
        ∃ r' out, portStep c r p = .next (r', out) ∧ out.ev = some ⟨0, 0, 0, 0⟩ ∧
          r'.abs = .ok (if p.fdByte = c.frameStart then ⟨.expectLength, [], none, false⟩
            else ⟨.waiting, [], none, false⟩)
      else portStep c r p = .fault f)

/-- The port realisation refines the machine: from registers that hold the decoder state, one step of the
ports gives registers that hold the decoder state the operations of the ports lead to, and on its output
ports exactly the event and the result they put out. Several operations in one step are the model's reading:
ENCODE beside the decoder's operations is DEDUCED, and the order of RESET and FEED raised together is free
(log 13). That output ports without a request carry no value is a DESIGN CHOICE (log 14). -/
def Obligations.PortStepRefinesTheMachine : Prop :=
  ∀ (s : State) (r : PortRegs) (p : PortIn), s.cfg.Legal → s.dec.Shape → r.abs = .ok s.dec →
    ∃ u t r' out, execAll (p.decoderOps (Config.resetFirst r.turn)) s = .next u ∧
      execAll p.encoderOps u = .next t ∧ portStep s.cfg r p = .next (r', out) ∧
      r'.abs = .ok t.dec ∧ t.dec.Shape ∧
      t.events.map eventPorts = s.events.map eventPorts ++ out.ev.toList ∧
      t.results.map resultPorts = s.results.map resultPorts ++ out.enc.toList

/-- A FEED raised beside RESET is accepted and puts out its one event (R74, R71), and RESET happens too
(R180). Their order is open in the spec and a free value of the model (log 13): with RESET first the byte
is a byte in `Waiting0`; with the FEED first the event is that of the frame in progress, and `Waiting0` is
left. -/
def Obligations.FeedBesideResetIsAccepted : Prop :=
  ∀ (c : Config) (r : PortRegs) (p : PortIn) (d : DecoderState), c.Legal → d.Shape → r.abs = .ok d →
    p.rst = true → p.fdValid = true →
    ∃ r' ev, portStep c r p = .next (r', ⟨some ev, p.encoderOut c⟩) ∧
      if Config.resetFirst r.turn = true then
        ev = ⟨0, 0, 0, 0⟩ ∧
        r'.abs = .ok (if p.fdByte = c.frameStart then ⟨.expectLength, [], none, false⟩
          else ⟨.waiting, [], none, false⟩)
      else
        ev = eventPorts (feed c d p.fdByte).2 ∧ r'.abs = .ok ⟨.waiting, [], none, false⟩
end

