-- ==== Sys2Proof/Laws/Decode.lean ====
section
/-! SUPPORT. Everything the decode map can answer. -/

namespace Sys2Proof

open Machine (IsLength)

/-- The class of a byte, with the tests that lead there (R65, R133). -/
theorem classify_cases (c : Config) (x : Context) (b : Byte) :
    (b = c.frameStart ∧ classify c x b = .sof) ∨
    (b ≠ c.frameStart ∧ x.st = .waiting ∧ classify c x b = .ignore) ∨
    (b ≠ c.frameStart ∧ x.st = .expectLength ∧ IsLength b ∧ classify c x b = .len) ∨
    (b ≠ c.frameStart ∧ x.st = .expectLength ∧ ¬IsLength b ∧ classify c x b = .badlen) ∨
    (b ≠ c.frameStart ∧ x.st = .inPayload ∧ x.pending = true ∧ b = c.escapedStart ∧
      classify c x b = .unescStart) ∨
    (b ≠ c.frameStart ∧ x.st = .inPayload ∧ x.pending = true ∧ b ≠ c.escapedStart ∧
      b = c.escapedEscape ∧ classify c x b = .unescEsc) ∨
    (b ≠ c.frameStart ∧ x.st = .inPayload ∧ x.pending = true ∧ b ≠ c.escapedStart ∧
      b ≠ c.escapedEscape ∧ classify c x b = .badesc) ∨
    (b ≠ c.frameStart ∧ x.st = .inPayload ∧ x.pending = false ∧ b = c.escape ∧
      classify c x b = .esc) ∨
    (b ≠ c.frameStart ∧ x.st = .inPayload ∧ x.pending = false ∧ b ≠ c.escape ∧
      classify c x b = .data) := by
  by_cases h0 : b = c.frameStart
  · exact .inl ⟨h0, if_pos h0⟩
  refine .inr ?_
  rw [classify, if_neg h0]
  obtain ⟨st, pending⟩ := x
  cases st
  · exact .inl ⟨h0, rfl, rfl⟩
  · refine .inr ?_
    by_cases h1 : IsLength b
    · exact .inl ⟨h0, rfl, h1, if_pos h1⟩
    · exact .inr (.inl ⟨h0, rfl, h1, if_neg h1⟩)
  · refine .inr (.inr (.inr ?_))
    cases pending
    · by_cases h1 : b = c.escape
      · exact .inr (.inr (.inr (.inl ⟨h0, rfl, rfl, h1, if_pos h1⟩)))
      · exact .inr (.inr (.inr (.inr ⟨h0, rfl, rfl, h1, if_neg h1⟩)))
    · by_cases h1 : b = c.escapedStart
      · exact .inl ⟨h0, rfl, rfl, h1, if_pos h1⟩
      · by_cases h2 : b = c.escapedEscape
        · exact .inr (.inl ⟨h0, rfl, rfl, h1, h2, (if_neg h1).trans (if_pos h2)⟩)
        · exact .inr (.inr (.inl ⟨h0, rfl, rfl, h1, h2, (if_neg h1).trans (if_neg h2)⟩))

end Sys2Proof
end

