-- ==== Sys2Proof/Laws/Operands.lean ====
section
/-! SUPPORT. The identifier's byte order, split and join, and its top bits. -/

namespace Sys2Proof.Machine

/-- Joining the four bytes of an identifier gives it back (R42, R43). -/
theorem rawId_idLe32 (id : Ident) :
    rawId (id.extractLsb' 0 8) (id.extractLsb' 8 8) (id.extractLsb' 16 8) (id.extractLsb' 24 8) = id := by
  apply BitVec.eq_of_getLsbD_eq
  intro i hi
  simp only [rawId, BitVec.getLsbD_or, BitVec.getLsbD_shiftLeft, BitVec.getLsbD_setWidth,
    BitVec.getLsbD_extractLsb']
  rcases (by omega : i < 8 ∨ (8 ≤ i ∧ i < 16) ∨ (16 ≤ i ∧ i < 24) ∨ (24 ≤ i ∧ i < 32)) with h | h | h | h
  · simp [h, hi, show i < 16 by omega, show i < 24 by omega]
  · simp [hi, show ¬i < 8 by omega, show i < 16 by omega, show i < 24 by omega,
      show i - 8 < 8 by omega, show i - 8 < 32 by omega, show 8 + (i - 8) = i by omega]
  · simp [hi, show ¬i < 8 by omega, show ¬i < 16 by omega, show i < 24 by omega,
      show ¬i - 8 < 8 by omega, show i - 16 < 8 by omega, show i - 16 < 32 by omega,
      show 16 + (i - 16) = i by omega]
  · simp [hi, show ¬i < 8 by omega, show ¬i < 16 by omega, show ¬i < 24 by omega,
      show ¬i - 8 < 8 by omega, show ¬i - 16 < 8 by omega, show i - 24 < 8 by omega,
      show i - 24 < 32 by omega, show 24 + (i - 24) = i by omega]

/-- Splitting a joined identifier gives the four bytes back (R42, R43). -/
theorem idLe32_rawId (b0 b1 b2 b3 : Byte) : idLe32 (rawId b0 b1 b2 b3) = [b0, b1, b2, b3] := by
  have key : ∀ (k : Nat) (b : Byte), (∀ i < 8, (rawId b0 b1 b2 b3).getLsbD (k + i) = b.getLsbD i) →
      (rawId b0 b1 b2 b3).extractLsb' k 8 = b := by
    intro k b h
    apply BitVec.eq_of_getLsbD_eq
    intro i hi
    simp [hi, h i hi]
  have z : ∀ (b : Byte) (j : Nat), 8 ≤ j → b.getLsbD j = false := fun b j hj => BitVec.getLsbD_of_ge b j hj
  simp only [idLe32, List.cons.injEq]
  refine ⟨key 0 b0 ?_, key 8 b1 ?_, key 16 b2 ?_, key 24 b3 ?_, trivial⟩ <;> intro i hi <;>
    simp only [rawId, BitVec.getLsbD_or, BitVec.getLsbD_shiftLeft, BitVec.getLsbD_setWidth]
  · simp [show i < 32 by omega, show i < 8 by omega, show i < 16 by omega, show i < 24 by omega]
  · simp [show 8 + i < 32 by omega, show 8 + i < 16 by omega, show 8 + i < 24 by omega,
      show i < 32 by omega]
  · simp [show 16 + i < 32 by omega, show ¬16 + i < 16 by omega, show 16 + i < 24 by omega,
      show i < 32 by omega, z b0 (16 + i) (by omega), z b1 (16 + i - 8) (by omega)]
  · simp [show 24 + i < 32 by omega, show ¬24 + i < 24 by omega, show ¬24 + i < 16 by omega,
      show i < 32 by omega, z b0 (24 + i) (by omega), z b1 (24 + i - 8) (by omega),
      z b2 (24 + i - 16) (by omega)]

/-- Bits 31..29 are zero exactly below 2^29 (R102). -/
theorem topBits_eq_zero (id : Ident) : topBits id = 0 ↔ id.toNat < 2 ^ 29 := by
  rw [topBits, ← BitVec.toNat_inj, show (0 : BitVec 3).toNat = 0 from rfl]
  simp only [BitVec.extractLsb'_toNat, Nat.shiftRight_eq_div_pow]
  have := id.isLt
  omega

/-- MASK clears bits 31..29 (R132). -/
theorem topBits_mask (id : Ident) : topBits (id &&& 0x1FFFFFFF) = 0 := by
  rw [topBits_eq_zero, BitVec.toNat_and]
  exact Nat.lt_of_le_of_lt Nat.and_le_right (by decide)

/-- A LENGTH byte holds its number, for a payload the encoder accepts (R76). -/
theorem lengthByte_toNat {n : Nat} (h : n ≤ 8) : (lengthByte n).toNat = n + 4 := by
  rw [lengthByte, BitVec.toNat_ofNat]; omega

/-- A lane count bounds the packed number. -/
theorem packLanes_lt (bs : List Byte) : packLanes bs < 256 ^ bs.length := by
  induction bs with
  | nil => decide
  | cons b bs ih => have := b.isLt; simp only [packLanes, List.length_cons, Nat.pow_succ]; omega

end Sys2Proof.Machine
end

