-- ==== Sys2Proof/Laws/State.lean ====
section
/-! SUPPORT. One lemma per field per update of State. -/

namespace Sys2Proof.Machine

variable (s : State) (r : DecoderState × Event) (b : Byte) (bs : List Byte) (e : EncodeResult)

@[simp] theorem State.emit_cfg : (s.emit r).cfg = s.cfg := rfl
@[simp] theorem State.emit_dec : (s.emit r).dec = r.1 := rfl
@[simp] theorem State.emit_requests : (s.emit r).requests = s.requests := rfl
@[simp] theorem State.emit_events : (s.emit r).events = s.events ++ [r.2] := rfl
@[simp] theorem State.emit_results : (s.emit r).results = s.results := rfl

@[simp] theorem State.feed_cfg : (s.feed b).cfg = s.cfg := rfl
@[simp] theorem State.feed_dec : (s.feed b).dec = (Machine.feed s.cfg s.dec b).1 := rfl
@[simp] theorem State.feed_requests : (s.feed b).requests = s.requests := rfl
@[simp] theorem State.feed_events :
    (s.feed b).events = s.events ++ [(Machine.feed s.cfg s.dec b).2] := rfl
@[simp] theorem State.feed_results : (s.feed b).results = s.results := rfl

@[simp] theorem State.feedBytes_cfg : (s.feedBytes bs).cfg = s.cfg := rfl
@[simp] theorem State.feedBytes_dec : (s.feedBytes bs).dec = (feedAll s.cfg s.dec bs).1 := rfl
@[simp] theorem State.feedBytes_requests : (s.feedBytes bs).requests = s.requests := rfl
@[simp] theorem State.feedBytes_events :
    (s.feedBytes bs).events = s.events ++ (feedAll s.cfg s.dec bs).2 := rfl
@[simp] theorem State.feedBytes_results : (s.feedBytes bs).results = s.results := rfl

@[simp] theorem State.addResult_cfg : (s.addResult e).cfg = s.cfg := rfl
@[simp] theorem State.addResult_dec : (s.addResult e).dec = s.dec := rfl
@[simp] theorem State.addResult_requests : (s.addResult e).requests = s.requests := rfl
@[simp] theorem State.addResult_events : (s.addResult e).events = s.events := rfl
@[simp] theorem State.addResult_results : (s.addResult e).results = s.results ++ [e] := rfl

@[simp] theorem DecoderState.setPending_st (d : DecoderState) : d.setPending.st = d.st := rfl
@[simp] theorem DecoderState.setPending_buf (d : DecoderState) : d.setPending.buf = d.buf := rfl
@[simp] theorem DecoderState.setPending_target (d : DecoderState) : d.setPending.target = d.target := rfl
@[simp] theorem DecoderState.setPending_pending (d : DecoderState) : d.setPending.pending = true := rfl

@[simp] theorem DecoderState.context_st (d : DecoderState) : d.context.st = d.st := rfl
@[simp] theorem DecoderState.context_pending (d : DecoderState) : d.context.pending = d.pending := rfl

end Sys2Proof.Machine
end

