-- ==== Sys2Proof/Laws/Ops.lean ====
section
/-! SUPPORT. One lemma per shared operation: everything it can answer. -/

namespace Sys2Proof.Machine

/-! ### How an operation completes -/

theorem complete_of_legal {s : State} (h : s.cfg.Legal) (t : State) : complete s t = .next t := if_pos h

theorem complete_of_not_legal {s : State} (h : ¬s.cfg.Legal) (t : State) :
    complete s t = .refused .illegalConfiguration := if_neg h

/-- An operation that answers a next state did so under legal parameters, and answered the state given. -/
theorem complete_eq_next {s t u : State} (h : complete s t = .next u) : s.cfg.Legal ∧ u = t := by
  by_cases hl : s.cfg.Legal
  · rw [complete_of_legal hl] at h; cases h; exact ⟨hl, rfl⟩
  · rw [complete_of_not_legal hl] at h; cases h

theorem complete_ne_fault (s t : State) (f : Fault) : complete s t ≠ .fault f := by
  by_cases hl : s.cfg.Legal
  · rw [complete_of_legal hl]; exact nofun
  · rw [complete_of_not_legal hl]; exact nofun

/-! ### The decoder -/

/-- PUSH completes the frame or lengthens the buffer. -/
theorem push_cases (c : Config) (d : DecoderState) (x : Byte) :
    (d.target = some (d.buf.length + 1) ∧ push c d x = (.waiting0, message c (d.buf ++ [x]))) ∨
    (d.target ≠ some (d.buf.length + 1) ∧
      push c d x = (⟨.inPayload, d.buf ++ [x], d.target, false⟩, .none)) := by
  by_cases h : some (d.buf.length + 1) = d.target
  · exact .inl ⟨h.symm, if_pos h⟩
  · exact .inr ⟨fun e => h e.symm, if_neg h⟩

/-- Everything one FEED can do, with the tests that lead there (R120). -/
theorem feed_cases (c : Config) (d : DecoderState) (b : Byte) :
    (b = c.frameStart ∧ feed c d b = (⟨.expectLength, [], none, false⟩, .none)) ∨
    (b ≠ c.frameStart ∧ d.st = .waiting ∧ feed c d b = (d, .none)) ∨
    (b ≠ c.frameStart ∧ d.st = .expectLength ∧ IsLength b ∧
      feed c d b = (⟨.inPayload, [], some b.toNat, false⟩, .none)) ∨
    (b ≠ c.frameStart ∧ d.st = .expectLength ∧ ¬IsLength b ∧ feed c d b = protocolError .badLength) ∨
    (b ≠ c.frameStart ∧ d.st = .inPayload ∧ d.pending = true ∧ b = c.escapedStart ∧
      feed c d b = push c d c.frameStart) ∨
    (b ≠ c.frameStart ∧ d.st = .inPayload ∧ d.pending = true ∧ b ≠ c.escapedStart ∧
      b = c.escapedEscape ∧ feed c d b = push c d c.escape) ∨
    (b ≠ c.frameStart ∧ d.st = .inPayload ∧ d.pending = true ∧ b ≠ c.escapedStart ∧
      b ≠ c.escapedEscape ∧ feed c d b = protocolError .badEscape) ∨
    (b ≠ c.frameStart ∧ d.st = .inPayload ∧ d.pending = false ∧ b = c.escape ∧
      feed c d b = (d.setPending, .none)) ∨
    (b ≠ c.frameStart ∧ d.st = .inPayload ∧ d.pending = false ∧ b ≠ c.escape ∧
      feed c d b = push c d b) := by
  by_cases h0 : b = c.frameStart
  · exact .inl ⟨h0, if_pos h0⟩
  refine .inr ?_
  rw [feed, if_neg h0]
  cases hst : d.st
  · exact .inl ⟨h0, rfl, rfl⟩
  · refine .inr ?_
    by_cases h1 : IsLength b
    · exact .inl ⟨h0, rfl, h1, if_pos h1⟩
    · exact .inr (.inl ⟨h0, rfl, h1, if_neg h1⟩)
  · refine .inr (.inr (.inr ?_))
    cases hp : d.pending
    · by_cases h1 : b = c.escape
      · exact .inr (.inr (.inr (.inl ⟨h0, rfl, rfl, h1, if_pos h1⟩)))
      · exact .inr (.inr (.inr (.inr ⟨h0, rfl, rfl, h1, if_neg h1⟩)))
    · by_cases h1 : b = c.escapedStart
      · exact .inl ⟨h0, rfl, rfl, h1, if_pos h1⟩
      · by_cases h2 : b = c.escapedEscape
        · exact .inr (.inl ⟨h0, rfl, rfl, h1, h2, (if_neg h1).trans (if_pos h2)⟩)
        · exact .inr (.inr (.inl ⟨h0, rfl, rfl, h1, h2, (if_neg h1).trans (if_neg h2)⟩))

@[simp] theorem feed_frameStart (c : Config) (d : DecoderState) :
    feed c d c.frameStart = (⟨.expectLength, [], none, false⟩, .none) := if_pos rfl

@[simp] theorem feedAll_nil (c : Config) (d : DecoderState) : feedAll c d [] = (d, []) := rfl

theorem feedAll_cons (c : Config) (d : DecoderState) (b : Byte) (bs : List Byte) :
    feedAll c d (b :: bs) =
      ((feedAll c (feed c d b).1 bs).1, (feed c d b).2 :: (feedAll c (feed c d b).1 bs).2) := rfl

/-- FEEDs of two sequences: the second starts in the state the first left, and the events follow. -/
theorem feedAll_append (c : Config) (d : DecoderState) (as bs : List Byte) :
    feedAll c d (as ++ bs) =
      ((feedAll c (feedAll c d as).1 bs).1,
        (feedAll c d as).2 ++ (feedAll c (feedAll c d as).1 bs).2) := by
  induction as generalizing d with
  | nil => rfl
  | cons a as ih => simp only [List.cons_append, feedAll_cons, ih]

/-- Every FEED outputs one event (R71). -/
@[simp] theorem feedAll_events_length (c : Config) (d : DecoderState) (bs : List Byte) :
    (feedAll c d bs).2.length = bs.length := by
  induction bs generalizing d with
  | nil => rfl
  | cons b bs ih => simp only [feedAll_cons, List.length_cons, ih]

theorem State.feedBytes_nil (s : State) : s.feedBytes [] = s := by simp [State.feedBytes]

theorem State.feedBytes_cons (s : State) (b : Byte) (bs : List Byte) :
    s.feedBytes (b :: bs) = (s.feed b).feedBytes bs := by
  simp [State.feedBytes, State.feed, State.emit, feedAll_cons]

/-- A FEED named by its row is the row's transition where R65 selects it, and the FEED of its byte
elsewhere. -/
theorem State.feedRow_cases (s : State) (k : ByteClass) (b : Byte) (row : DecoderState × Event) :
    (classify s.cfg s.dec.context b = k ∧ s.feedRow k b row = s.emit row) ∨
    (classify s.cfg s.dec.context b ≠ k ∧ s.feedRow k b row = s.feed b) := by
  by_cases h : classify s.cfg s.dec.context b = k
  · exact .inl ⟨h, if_pos h⟩
  · exact .inr ⟨h, if_neg h⟩

/-! ### The encoder -/

/-- The three forms of an escaped byte. -/
theorem esc_cases (c : Config) (x : Byte) :
    (x = c.frameStart ∧ esc c x = [c.escape, c.escapedStart]) ∨
    (x ≠ c.frameStart ∧ x = c.escape ∧ esc c x = [c.escape, c.escapedEscape]) ∨
    (x ≠ c.frameStart ∧ x ≠ c.escape ∧ esc c x = [x]) := by
  by_cases h0 : x = c.frameStart
  · exact .inl ⟨h0, if_pos h0⟩
  · by_cases h1 : x = c.escape
    · exact .inr (.inl ⟨h0, h1, (if_neg h0).trans (if_pos h1)⟩)
    · exact .inr (.inr ⟨h0, h1, (if_neg h0).trans (if_neg h1)⟩)

@[simp] theorem escaped_nil (c : Config) : escaped c [] = [] := rfl

@[simp] theorem escaped_cons (c : Config) (x : Byte) (xs : List Byte) :
    escaped c (x :: xs) = esc c x ++ escaped c xs := rfl

@[simp] theorem region_length (id : Ident) (payload : List Byte) :
    (region id payload).length = 4 + payload.length := by
  simp [region, idLe32]; omega

theorem encodeFrame_of_encodable {id : Ident} {payload : List Byte} (h : Encodable id payload)
    (c : Config) : encodeFrame c id payload = .ok (frame c id payload) := if_pos h

theorem encodeFrame_of_not_encodable {id : Ident} {payload : List Byte} (h : ¬Encodable id payload)
    (c : Config) : encodeFrame c id payload = .invalidArgument := if_neg h

end Sys2Proof.Machine
end

