-- ==== Sys2Proof/Laws/PerInstr.lean ====
section
/-! SUPPORT. For every operation as syntax: its format and its number of bytes are its opcode-table row's. -/

namespace Sys2Proof.Laws.EncodedForm

/-- The format of an operation's row. -/
def format : Instr → Format
  | .feedSof | .feedIgnore _ | .feedLen _ | .feedBadlen _ | .feedUnescStart | .feedUnescEsc
  | .feedBadesc _ | .feedEsc | .feedData _ => .feedByte
  | .encode _ _ => .encodeRequest
  | .feed _ => .feedRequest
  | .reset => .reset
  | .tokSof | .tokLen _ | .tokEscStart | .tokEscEsc | .tokLit _ => .wireToken

/-- The number of bytes of an operation's row. -/
def size : Instr → Nat
  | .encode _ payload => 4 + payload.length
  | .reset => 0
  | .tokEscStart | .tokEscEsc => 2
  | .feedSof | .feedIgnore _ | .feedLen _ | .feedBadlen _ | .feedUnescStart | .feedUnescEsc
  | .feedBadesc _ | .feedEsc | .feedData _ | .feed _ | .tokSof | .tokLen _ | .tokLit _ => 1

/-- The encoder writes an operation in its row's format, with its row's number of bytes. -/
def Statement (i : Instr) : Prop :=
  ∀ c : Config, (Sys2Proof.encode c i).format = format i ∧ (Sys2Proof.encode c i).bytes.length = size i

theorem feedSof : Statement .feedSof := fun _ => ⟨rfl, rfl⟩
theorem feedIgnore (b : Byte) : Statement (.feedIgnore b) := fun _ => ⟨rfl, rfl⟩
theorem feedLen (b : Byte) : Statement (.feedLen b) := fun _ => ⟨rfl, rfl⟩
theorem feedBadlen (b : Byte) : Statement (.feedBadlen b) := fun _ => ⟨rfl, rfl⟩
theorem feedUnescStart : Statement .feedUnescStart := fun _ => ⟨rfl, rfl⟩
theorem feedUnescEsc : Statement .feedUnescEsc := fun _ => ⟨rfl, rfl⟩
theorem feedBadesc (b : Byte) : Statement (.feedBadesc b) := fun _ => ⟨rfl, rfl⟩
theorem feedEsc : Statement .feedEsc := fun _ => ⟨rfl, rfl⟩
theorem feedData (b : Byte) : Statement (.feedData b) := fun _ => ⟨rfl, rfl⟩
theorem encode (id : Ident) (payload : List Byte) : Statement (.encode id payload) := fun _ =>
  ⟨rfl, by simp [Sys2Proof.encode, Machine.idLe32, size]; omega⟩
theorem feed (b : Byte) : Statement (.feed b) := fun _ => ⟨rfl, rfl⟩
theorem reset : Statement .reset := fun _ => ⟨rfl, rfl⟩
theorem tokSof : Statement .tokSof := fun _ => ⟨rfl, rfl⟩
theorem tokLen (l : BitVec 4) : Statement (.tokLen l) := fun _ => ⟨rfl, rfl⟩
theorem tokEscStart : Statement .tokEscStart := fun _ => ⟨rfl, rfl⟩
theorem tokEscEsc : Statement .tokEscEsc := fun _ => ⟨rfl, rfl⟩
theorem tokLit (d : Byte) : Statement (.tokLit d) := fun _ => ⟨rfl, rfl⟩

end Sys2Proof.Laws.EncodedForm
end

