-- ==== Sys2Proof/Laws/Ports.lean ====
section
/-! SUPPORT. What the registers hold after a write, and one lemma per combination of the request ports. -/

namespace Sys2Proof.Machine

variable {c : Config} {r : PortRegs} {p : PortIn} {d : DecoderState} {b : Byte} {n : Nat}

/-! ### Registers -/

@[simp] theorem PortRegs.store_turn : (r.store d).turn = r.turn := rfl
@[simp] theorem PortRegs.reset_turn : r.reset.turn = r.turn := rfl

/-- The decoder state does not depend on the model's count. -/
@[simp] theorem PortRegs.abs_turn : ({ r with turn := n } : PortRegs).abs = r.abs := rfl

/-- After RESET the registers hold `Waiting0`, whatever they held. -/
@[simp] theorem PortRegs.abs_reset : r.reset.abs = .ok .waiting0 := rfl

theorem PortRegs.feed_of_abs (h : r.abs = .ok d) :
    r.feed c b = .ok (r.store (Machine.feed c d b).1, eventPorts (Machine.feed c d b).2) := by
  simp only [PortRegs.feed, h]

theorem PortRegs.feed_of_fault {f : Fault} (h : r.abs = .error f) : r.feed c b = .error f := by
  simp only [PortRegs.feed, h]

/-- RESET before FEED: the byte is fed to `Waiting0`, whatever the registers held. -/
theorem PortRegs.resetAndFeed_of_resetFirst (h : Config.resetFirst r.turn = true) :
    r.resetAndFeed c b =
      .ok ((({ r with turn := r.turn + 1 } : PortRegs).reset).store (Machine.feed c .waiting0 b).1,
        eventPorts (Machine.feed c .waiting0 b).2) := by
  simp only [PortRegs.resetAndFeed, h, if_true]
  exact PortRegs.feed_of_abs PortRegs.abs_reset

/-- FEED before RESET: the event is that of the FEED on what the registers held, and RESET comes after. -/
theorem PortRegs.resetAndFeed_of_feedFirst (h : Config.resetFirst r.turn = false) (hd : r.abs = .ok d) :
    r.resetAndFeed c b =
      .ok (((({ r with turn := r.turn + 1 } : PortRegs).store (Machine.feed c d b).1)).reset,
        eventPorts (Machine.feed c d b).2) := by
  simp only [PortRegs.resetAndFeed, h, Bool.false_eq_true, if_false,
    PortRegs.feed_of_abs (PortRegs.abs_turn.trans hd)]

theorem PortRegs.resetAndFeed_of_fault {f : Fault} (h : Config.resetFirst r.turn = false)
    (hd : r.abs = .error f) : r.resetAndFeed c b = .error f := by
  simp only [PortRegs.resetAndFeed, h, Bool.false_eq_true, if_false,
    PortRegs.feed_of_fault (PortRegs.abs_turn.trans hd)]

/-! ### One step of the ports -/

theorem portStep_of_idle (h : c.Legal) (hr : p.rst = false) (hf : p.fdValid = false) :
    portStep c r p = .next (r, ⟨none, p.encoderOut c⟩) := by
  simp only [portStep, if_pos h, PortIn.decoderStep, hr, hf]

theorem portStep_of_reset (h : c.Legal) (hr : p.rst = true) (hf : p.fdValid = false) :
    portStep c r p = .next (r.reset, ⟨none, p.encoderOut c⟩) := by
  simp only [portStep, if_pos h, PortIn.decoderStep, hr, hf]

theorem portStep_of_feed {q : PortRegs × EventPorts} (h : c.Legal) (hr : p.rst = false)
    (hf : p.fdValid = true) (hq : r.feed c p.fdByte = .ok q) :
    portStep c r p = .next (q.1, ⟨some q.2, p.encoderOut c⟩) := by
  simp only [portStep, if_pos h, PortIn.decoderStep, hr, hf, hq, Except.map]

theorem portStep_of_fault {f : Fault} (h : c.Legal) (hr : p.rst = false) (hf : p.fdValid = true)
    (hq : r.feed c p.fdByte = .error f) : portStep c r p = .fault f := by
  simp only [portStep, if_pos h, PortIn.decoderStep, hr, hf, hq, Except.map]

theorem portStep_of_both {q : PortRegs × EventPorts} (h : c.Legal) (hr : p.rst = true)
    (hf : p.fdValid = true) (hq : r.resetAndFeed c p.fdByte = .ok q) :
    portStep c r p = .next (q.1, ⟨some q.2, p.encoderOut c⟩) := by
  simp only [portStep, if_pos h, PortIn.decoderStep, hr, hf, hq, Except.map]

theorem portStep_of_both_fault {f : Fault} (h : c.Legal) (hr : p.rst = true) (hf : p.fdValid = true)
    (hq : r.resetAndFeed c p.fdByte = .error f) : portStep c r p = .fault f := by
  simp only [portStep, if_pos h, PortIn.decoderStep, hr, hf, hq, Except.map]

end Sys2Proof.Machine
end

