-- ==== Sys2Proof/Laws/Step.lean ====
section
/-! SUPPORT. Everything one step can do. -/

namespace Sys2Proof.Machine

/-- A step that answers a next state was idle, dropped a finished group, or ran the operation it fetched. -/
theorem step_cases {s t : State} (h : step s = .next t) :
    (s.fetch = .idle ∧ t = s) ∨
    (∃ rest, s.fetch = .finished rest ∧ t = { s with requests := rest }) ∨
    (∃ i rest, s.fetch = .fetched i rest ∧ exec i { s with requests := rest } = .next t) := by
  unfold step at h
  cases hf : s.fetch with
  | idle => rw [hf] at h; cases h; exact .inl ⟨rfl, rfl⟩
  | finished rest => rw [hf] at h; cases h; exact .inr (.inl ⟨rest, rfl, rfl⟩)
  | fetched i rest => rw [hf] at h; exact .inr (.inr ⟨i, rest, rfl, h⟩)
  | bad e => rw [hf] at h; cases h

/-- A fetched operation comes from the first request; the rest of its group stays first. -/
theorem fetch_cases {s : State} {i : Instr} {rest : List Request} (h : s.fetch = .fetched i rest) :
    ∃ r rs more, s.requests = r :: rs ∧ decode s.cfg s.dec.context r = .instr i more ∧
      rest = requeue r.format more rs := by
  unfold State.fetch at h
  cases hr : s.requests with
  | nil => rw [hr] at h; cases h
  | cons r rs =>
    rw [hr] at h
    cases hd : decode s.cfg s.dec.context r with
    | done => simp only [hd] at h; cases h
    | instr j more => simp only [hd] at h; cases h; exact ⟨r, rs, more, rfl, hd, rfl⟩
    | rejected e => simp only [hd] at h; cases h

@[simp] theorem requeue_nil (f : Format) (rest : List Request) : requeue f [] rest = rest := rfl

@[simp] theorem requeue_cons (f : Format) (b : Byte) (bs : List Byte) (rest : List Request) :
    requeue f (b :: bs) rest = ⟨f, b :: bs⟩ :: rest := rfl

end Sys2Proof.Machine
end

