-- ==== Sys2Proof/Tests/Slice0.lean ====
section
/-! SUPPORT. Tests: expected results are the spec's own encodings and vectors (spec/95_test_vectors.md); then a
witness for the hypotheses of every statement that has some. -/

namespace Sys2Proof.Tests

open Sys2Proof Sys2Proof.Machine

/-! ### Helpers -/

/-- The machine after reset, with its decoder in `d`. -/
def at0 (d : DecoderState) : State := { State.reset with dec := d }

/-- The decoder state and the events of one operation. -/
def fed (i : Instr) (d : DecoderState) : Option (DecoderState × List Event) :=
  match exec i (at0 d) with
  | .next t => some (t.dec, t.events)
  | _ => none

/-- The results of one operation. -/
def encoded (i : Instr) : Option (List EncodeResult) :=
  match exec i State.reset with
  | .next t => some t.results
  | _ => none

/-- `(ExpectLength, [], -, 0)`. -/
def expect0 : DecoderState := ⟨.expectLength, [], none, false⟩

/-- A second legal assignment, where `0xFF` is the escape marker and identifiers with top bits are
dropped. -/
def other : Config := ⟨0x7E, 0xFF, 0x01, 0x02, .drop⟩

/-! ### WellFormed refuses an ill-formed operation, check by check -/

theorem test_illformed_ignore : WellFormed .standard ⟨.waiting, false⟩ (.feedIgnore 0xFF) = false := by decide
theorem test_illformed_len : WellFormed .standard ⟨.expectLength, false⟩ (.feedLen 0x0D) = false := by decide
theorem test_illformed_badlen : WellFormed .standard ⟨.expectLength, false⟩ (.feedBadlen 0x0C) = false := by decide
theorem test_illformed_unesc_start : WellFormed .standard ⟨.inPayload, false⟩ .feedUnescStart = false := by decide
theorem test_illformed_unesc_esc : WellFormed .standard ⟨.waiting, false⟩ .feedUnescEsc = false := by decide
theorem test_illformed_badesc : WellFormed .standard ⟨.inPayload, true⟩ (.feedBadesc 0xFD) = false := by decide
theorem test_illformed_esc : WellFormed .standard ⟨.inPayload, true⟩ .feedEsc = false := by decide
theorem test_illformed_data : WellFormed .standard ⟨.inPayload, false⟩ (.feedData 0xFE) = false := by decide
theorem test_illformed_tok_len : WellFormed .standard ⟨.expectLength, false⟩ (.tokLen 3) = false := by decide
theorem test_illformed_tok_len_place : WellFormed .standard ⟨.inPayload, false⟩ (.tokLen 6) = false := by decide
theorem test_illformed_tok_esc_start : WellFormed .standard ⟨.expectLength, false⟩ .tokEscStart = false := by decide
theorem test_illformed_tok_esc_esc : WellFormed .standard ⟨.inPayload, true⟩ .tokEscEsc = false := by decide
theorem test_illformed_tok_lit : WellFormed .standard ⟨.inPayload, false⟩ (.tokLit 0xFF) = false := by decide

/-! ### Decoding: every row, by a word written out from the spec's encoding -/

/-- R65, row 1: `1111 1111`. -/
theorem test_decode_sof : decodeTableWord 8 0b11111111 = some .feedSof := by decide
/-- R65, row 2. -/
theorem test_decode_ignore : decodeTableWord 8 0b00000101 = some (.feedIgnore 0x05) := by decide
/-- R65, row 3: 12 is the last LENGTH. -/
theorem test_decode_len :
    decode .standard ⟨.expectLength, false⟩ ⟨.feedByte, [0b00001100]⟩ = .instr (.feedLen 12) [] := by decide
/-- R65, row 4: 3 is below the first LENGTH. -/
theorem test_decode_badlen :
    decode .standard ⟨.expectLength, false⟩ ⟨.feedByte, [0b00000011]⟩ = .instr (.feedBadlen 3) [] := by decide
/-- R65, row 5: `1111 1110` with `pending = 1`. -/
theorem test_decode_unesc_start :
    decode .standard ⟨.inPayload, true⟩ ⟨.feedByte, [0b11111110]⟩ = .instr .feedUnescStart [] := by decide
/-- R65, row 6: `1111 1101` with `pending = 1`. -/
theorem test_decode_unesc_esc :
    decode .standard ⟨.inPayload, true⟩ ⟨.feedByte, [0b11111101]⟩ = .instr .feedUnescEsc [] := by decide
/-- R65, row 7. -/
theorem test_decode_badesc :
    decode .standard ⟨.inPayload, true⟩ ⟨.feedByte, [0b00000000]⟩ = .instr (.feedBadesc 0) [] := by decide
/-- R65, row 8: `1111 1110` with `pending = 0`. -/
theorem test_decode_esc :
    decode .standard ⟨.inPayload, false⟩ ⟨.feedByte, [0b11111110]⟩ = .instr .feedEsc [] := by decide
/-- R65, row 9. -/
theorem test_decode_data :
    decode .standard ⟨.inPayload, false⟩ ⟨.feedByte, [0b11111101]⟩ = .instr (.feedData 0xFD) [] := by decide
/-- R69, the identifier first and least significant byte first (log 9). -/
theorem test_decode_encode : decode .standard .reset ⟨.encodeRequest, [0x23, 0x01, 0x00, 0x00, 0xAA, 0xFF]⟩ =
    .instr (.encode 0x123 [0xAA, 0xFF]) [] := by decide
/-- R70, R75: one byte of a group at a time. -/
theorem test_decode_feed :
    decode .standard .reset ⟨.feedRequest, [0x23, 0xFE]⟩ = .instr (.feed 0x23) [0xFE] := by decide
/-- R180: no operands. -/
theorem test_decode_reset : decode .standard .reset ⟨.reset, []⟩ = .instr .reset [] := by decide
theorem test_decode_reset_operand :
    decode .standard .reset ⟨.reset, [0]⟩ = .rejected .resetWithOperands := by decide
/-- R60: the frame of vector E-8 read as tokens, one after the other. -/
theorem test_decode_tok_sof : decode .standard .reset ⟨.wireToken, [0xFF, 0x04, 0xFE, 0xFD]⟩ =
    .instr .tokSof [0x04, 0xFE, 0xFD] := by decide
/-- R61, R76: `0000 LLLL`. -/
theorem test_decode_tok_len : decode .standard ⟨.expectLength, false⟩ ⟨.wireToken, [0b00000100, 0xFE]⟩ =
    .instr (.tokLen 0b0100) [0xFE] := by decide
/-- R62: `1111 1110 1111 1110`. -/
theorem test_decode_tok_esc_start : decodeTableWord 16 0b1111111011111110 = some .tokEscStart := by decide
/-- R62: `1111 1110 1111 1101`. -/
theorem test_decode_tok_esc_esc : decodeTableWord 16 0b1111111011111101 = some .tokEscEsc := by decide
/-- R62: any other byte of the region. -/
theorem test_decode_tok_lit :
    decode .standard ⟨.inPayload, false⟩ ⟨.wireToken, [0xFD]⟩ = .instr (.tokLit 0xFD) [] := by decide
/-- R66: an escape without its substitute is no token; it is fed as it is. -/
theorem test_decode_no_token :
    decode .standard ⟨.inPayload, false⟩ ⟨.wireToken, [0xFE, 0x00]⟩ = .instr (.feed 0xFE) [0x00] := by decide

/-! ### FEED: vectors D-1 to D-23 -/

/-- D-15: `FRAME_START` after an escape is no bad escape. -/
theorem test_D15 : fed .feedSof ⟨.inPayload, [0x01], some 5, true⟩ = some (expect0, [.none]) := by decide
/-- D-8: `FRAME_START` as a length is no bad length. -/
theorem test_D8 : fed .feedSof expect0 = some (expect0, [.none]) := by decide
/-- D-2. -/
theorem test_D2 : fed (.feedIgnore 0xFE) .waiting0 = some (.waiting0, [.none]) := by decide
/-- D-9. -/
theorem test_D9 : fed (.feedLen 0x04) expect0 = some (⟨.inPayload, [], some 4, false⟩, [.none]) := by decide
/-- D-10. -/
theorem test_D10 : fed (.feedLen 0x0C) expect0 = some (⟨.inPayload, [], some 12, false⟩, [.none]) := by decide
/-- D-4. -/
theorem test_D4 : fed (.feedBadlen 0x03) expect0 = some (.waiting0, [.error .badLength]) := by decide
/-- D-7: `ESCAPE` as a length. -/
theorem test_D7 : fed (.feedBadlen 0xFE) expect0 = some (.waiting0, [.error .badLength]) := by decide
/-- D-12. -/
theorem test_D12 : fed .feedUnescStart ⟨.inPayload, [0x01], some 5, true⟩ =
    some (⟨.inPayload, [0x01, 0xFF], some 5, false⟩, [.none]) := by decide
/-- The example of R125: the substitute that completes a frame. -/
theorem test_R125 : fed .feedUnescStart ⟨.inPayload, [0x23, 0x01, 0x00, 0x00, 0xAA], some 6, true⟩ =
    some (.waiting0, [.message 0x123 [0xAA, 0xFF]]) := by decide
/-- D-13. -/
theorem test_D13 : fed .feedUnescEsc ⟨.inPayload, [], some 4, true⟩ =
    some (⟨.inPayload, [0xFE], some 4, false⟩, [.none]) := by decide
/-- D-21: the twelfth byte, from an escape. -/
theorem test_D21 : fed .feedUnescEsc ⟨.inPayload, [1, 2, 3, 4, 5, 6, 7, 8, 9, 10, 11], some 12, true⟩ =
    some (.waiting0, [.message 0x04030201 [5, 6, 7, 8, 9, 10, 11, 0xFE]]) := by decide
/-- D-14. -/
theorem test_D14 : fed (.feedBadesc 0x00) ⟨.inPayload, [0x01], some 5, true⟩ =
    some (.waiting0, [.error .badEscape]) := by decide
/-- D-22: an escape never completes a frame. -/
theorem test_D22 : fed .feedEsc ⟨.inPayload, [1, 2, 3, 4, 5, 6, 7, 8, 9, 10, 11], some 12, false⟩ =
    some (⟨.inPayload, [1, 2, 3, 4, 5, 6, 7, 8, 9, 10, 11], some 12, true⟩, [.none]) := by decide
/-- D-20: a substitute value as data. -/
theorem test_D20 : fed (.feedData 0xFD) ⟨.inPayload, [], some 6, false⟩ =
    some (⟨.inPayload, [0xFD], some 6, false⟩, [.none]) := by decide
/-- D-16. -/
theorem test_D16 : fed (.feedData 0x11) ⟨.inPayload, [1, 2, 3], some 4, false⟩ =
    some (.waiting0, [.message 0x11030201 []]) := by decide
/-- D-17a: PASS. -/
theorem test_D17a : fed (.feed 0xE0) ⟨.inPayload, [0, 0, 0], some 4, false⟩ =
    some (.waiting0, [.message 0xE0000000 []]) := by decide
/-- D-17b and D-17c: MASK and DROP. -/
theorem test_D17bc : applyPolicy .mask 0xE0000000 [] = .message 0 [] ∧
    applyPolicy .drop 0xE0000000 [] = .none := by decide
/-- A row that R65 does not select there is the FEED of its byte (log 6): `0x06` in `InPayload` is data. -/
theorem test_row_elsewhere : fed (.feedLen 0x06) ⟨.inPayload, [0x01], some 5, false⟩ =
    some (⟨.inPayload, [0x01, 0x06], some 5, false⟩, [.none]) := by decide
/-- D-23. -/
theorem test_D23 : fed .reset ⟨.inPayload, [1, 2], some 8, true⟩ = some (.waiting0, []) := by decide

/-! ### ENCODE: vectors E-1 to E-15 -/

/-- E-1: the source's own scenario. -/
theorem test_E1 : encoded (.encode 0x123 [0xAA, 0xFF]) =
    some [.ok [0xFF, 0x06, 0x23, 0x01, 0x00, 0x00, 0xAA, 0xFE, 0xFE]] := by decide
/-- E-3, E-9 and E-7. -/
theorem test_E3_E9_E7 :
    encodeFrame .standard 0x1FFFFFFF [] = .ok [0xFF, 0x04, 0xFE, 0xFE, 0xFE, 0xFE, 0xFE, 0xFE, 0x1F] ∧
    encodeFrame .standard 0x00FEFDFF [] = .ok [0xFF, 0x04, 0xFE, 0xFE, 0xFD, 0xFE, 0xFD, 0x00] ∧
    encodeFrame .standard 0x20000000 [0, 0, 0, 0, 0, 0, 0, 0, 0] = .invalidArgument := by decide

/-! ### Tokens: program P3, bytes 16 to 19 -/

theorem test_tok_sof : fed .tokSof .waiting0 = some (expect0, [.none]) := by decide
theorem test_tok_len : fed (.tokLen 5) expect0 = some (⟨.inPayload, [], some 5, false⟩, [.none]) := by decide
theorem test_tok_esc_esc : fed .tokEscEsc ⟨.inPayload, [], some 5, false⟩ =
    some (⟨.inPayload, [0xFE], some 5, false⟩, [.none, .none]) := by decide
theorem test_tok_esc_start : fed .tokEscStart ⟨.inPayload, [0x23, 0x01, 0x00, 0x00, 0xAA], some 6, false⟩ =
    some (.waiting0, [.none, .message 0x123 [0xAA, 0xFF]]) := by decide
theorem test_tok_lit : fed (.tokLit 0x99) ⟨.inPayload, [0xFE, 0, 0, 0], some 5, false⟩ =
    some (.waiting0, [.message 0xFE [0x99]]) := by decide

/-! ### A step, and the ports -/

/-- The first step after reset runs the word that was placed. -/
theorem test_fetch_word : (State.reset.withFetchWord 16 0xFEFD).fetch = .fetched .tokEscEsc [] := by decide
theorem test_fetch_word_sof : (State.reset.withFetchWord 8 0xFF).fetch = .fetched .feedSof [] := by decide
/-- R74: the message of D-16 on the ports. -/
theorem test_event_ports : eventPorts (.message 0x123 [0xAA, 0xFF]) = ⟨1, 0x123, 2, 0xFFAA⟩ := by decide
/-- R74, R180, R121: `FRAME_START` fed beside RESET opens a frame or is discarded with it; event None. -/
theorem test_feed_beside_reset : ∃ r, portStep Config.standard ⟨2, 1, Vector.replicate 12 7, 8, 1, 0⟩
      ⟨true, true, 0xFF, false, 0, 0, 0⟩ = .next (r, ⟨some ⟨0, 0, 0, 0⟩, none⟩) ∧
    (r.abs = .ok ⟨.expectLength, [], none, false⟩ ∨ r.abs = .ok ⟨.waiting, [], none, false⟩) := by
  cases h : Config.resetFirst 0
  · exact ⟨_, portStep_of_both (by decide) rfl rfl (PortRegs.resetAndFeed_of_feedFirst h rfl), .inr rfl⟩
  · exact ⟨_, portStep_of_both (by decide) rfl rfl (PortRegs.resetAndFeed_of_resetFirst h), .inl rfl⟩
/-- R74: the frame of E-2 on the ports. -/
theorem test_result_ports : resultPorts (.ok [0xFF, 0x04, 0, 0, 0, 0]) = ⟨0, 6, 0x04FF⟩ := by decide

/-! ### Witnesses: the hypotheses of every statement can be met -/

theorem legal : State.reset.cfg.Legal := by decide
theorem legal_other : other.Legal := by decide
theorem shape_waiting : DecoderState.waiting0.Shape := .inl ⟨rfl, rfl, rfl, rfl⟩
theorem shape_expect : expect0.Shape := .inr (.inl ⟨rfl, rfl, rfl, rfl⟩)

/-- A frame in progress, one byte short of its target. -/
def inFrame (pending : Bool) : DecoderState := ⟨.inPayload, [1, 2, 3], some 4, pending⟩

theorem shape_inFrame (p : Bool) : (inFrame p).Shape := .inr (.inr ⟨rfl, 4, rfl, by decide, by decide, Nat.le_refl 4⟩)

theorem witness_ResetGivesEveryFieldItsValue : (at0 (inFrame true)).cfg.Legal := legal
theorem witness_ResetDiscardsTheFrameSilently : (at0 (inFrame true)).cfg.Legal ∧
    (0xFE : Byte) ∈ [Config.standard.escapedStart, Config.standard.escapedEscape] := by decide
theorem witness_DecodeMapSelectsOneRow : ∀ d ∈ [.waiting0, expect0, inFrame false, inFrame true],
    (at0 d).cfg.Legal ∧ (at0 d).dec.Shape := by
  simp only [List.mem_cons, List.not_mem_nil, or_false]
  rintro d (rfl | rfl | rfl | rfl)
  exacts [⟨legal, shape_waiting⟩, ⟨legal, shape_expect⟩, ⟨legal, shape_inFrame false⟩, ⟨legal, shape_inFrame true⟩]
theorem witness_RowIsTheFeedOfItsByte : (at0 (inFrame true)).cfg.Legal ∧
    (encode (at0 (inFrame true)).cfg (ByteClass.len.row 0x0D)).bytes = [0x0D] ∧
    (encode (at0 (inFrame true)).cfg (ByteClass.esc.row 0x0D)).bytes = [0xFE] := by decide
theorem witness_FrameStartBeginsAFrameInAnyState : (at0 (inFrame true)).cfg.Legal := legal
theorem witness_WaitingDiscardsTheByte : State.reset.cfg.Legal ∧ State.reset.dec.st = .waiting ∧
    (0x05 : Byte) ≠ State.reset.cfg.frameStart := by decide
theorem witness_LengthByteOpensTheRegion : ∀ b ∈ ([4, 12] : List Byte), (at0 expect0).cfg.Legal ∧
    (at0 expect0).dec.st = .expectLength ∧ 4 ≤ b.toNat ∧ b.toNat ≤ 12 := by decide
theorem witness_BadLengthGoesToWaiting : ∀ b ∈ ([0, 3, 13, 0xFE] : List Byte), (at0 expect0).cfg.Legal ∧
    (at0 expect0).dec.st = .expectLength ∧ b ≠ (at0 expect0).cfg.frameStart ∧
    (b.toNat < 4 ∨ 12 < b.toNat) := by
  simp only [List.mem_cons, List.not_mem_nil, or_false]
  rintro b (rfl | rfl | rfl | rfl) <;> exact ⟨legal, rfl, by decide, by decide⟩
theorem witness_EscapedStartPushesFrameStart : (at0 (inFrame true)).cfg.Legal ∧
    (at0 (inFrame true)).dec.st = .inPayload ∧ (at0 (inFrame true)).dec.pending = true := by decide
theorem witness_EscapedEscapePushesEscape : (at0 (inFrame true)).cfg.Legal ∧
    (at0 (inFrame true)).dec.st = .inPayload ∧ (at0 (inFrame true)).dec.pending = true := by decide
theorem witness_BadEscapeGoesToWaiting : (at0 (inFrame true)).cfg.Legal ∧
    (at0 (inFrame true)).dec.st = .inPayload ∧ (at0 (inFrame true)).dec.pending = true ∧
    (0x00 : Byte) ≠ Config.standard.frameStart ∧ (0x00 : Byte) ≠ Config.standard.escapedStart ∧
    (0x00 : Byte) ≠ Config.standard.escapedEscape := by decide
theorem witness_EscapeSetsPending : (at0 (inFrame false)).cfg.Legal ∧
    (at0 (inFrame false)).dec.st = .inPayload ∧ (at0 (inFrame false)).dec.pending = false := by decide
theorem witness_DataBytePushesItself : ∀ b ∈ ([0x23, 0xFD, 0x04] : List Byte), (at0 (inFrame false)).cfg.Legal ∧
    (at0 (inFrame false)).dec.st = .inPayload ∧ (at0 (inFrame false)).dec.pending = false ∧
    b ≠ Config.standard.frameStart ∧ b ≠ Config.standard.escape := by decide
/-- Both clauses: at the target, and below it. -/
theorem witness_PushCompletesExactlyAtTheTarget :
    ((inFrame false).Shape ∧ (inFrame false).st = .inPayload ∧ (inFrame false).target = some 4 ∧
      (inFrame false).buf.length + 1 = 4) ∧
    ∃ d : DecoderState, d.Shape ∧ d.st = .inPayload ∧ d.target = some 12 ∧ d.buf.length + 1 ≠ 12 :=
  ⟨⟨shape_inFrame false, rfl, rfl, rfl⟩, ⟨.inPayload, [], some 12, true⟩,
    .inr (.inr ⟨rfl, 12, rfl, by decide, by decide, by decide⟩), rfl, rfl, by decide⟩
theorem witness_MessageSplitsTheBufferLittleEndian : ([0xAA, 0xFF] : List Byte).length ≤ 8 := by decide
/-- Both clauses at their boundary, and a buffer one byte below its target. -/
theorem witness_PolicyActsOnlyOnTopBits : (0x1FFFFFFF : Ident).toNat < 2 ^ 29 ∧
    2 ^ 29 ≤ (0x20000000 : Ident).toNat ∧
    (inFrame false).target = some ((inFrame false).buf.length + 1) := by decide
theorem witness_OnlyCompletionOrErrorSpeaks : (at0 (inFrame false)).cfg.Legal ∧ (at0 (inFrame false)).dec.Shape :=
  ⟨legal, shape_inFrame false⟩
theorem witness_PendingIsSetOnlyByAnEscape : (at0 (inFrame true)).cfg.Legal ∧ (at0 (inFrame true)).dec.Shape :=
  ⟨legal, shape_inFrame true⟩
/-- Both clauses at their boundaries: 8 and 9 bytes, `2^29 - 1` and `2^29`. -/
theorem witness_EncodeBuildsTheFrame : State.reset.cfg.Legal ∧
    ((List.replicate 8 (0xFF : Byte)).length ≤ 8 ∧ (0x1FFFFFFF : Ident).extractLsb' 29 3 = 0) ∧
    8 < (List.replicate 9 (0 : Byte)).length ∧ (0x20000000 : Ident).extractLsb' 29 3 ≠ 0 := by decide
theorem witness_EncodeChecksThePayloadLength : State.reset.cfg.Legal ∧
    8 < (List.replicate 9 (0 : Byte)).length ∧ (List.replicate 8 (0 : Byte)).length ≤ 8 ∧
    (0x7FF : Ident).toNat < 2 ^ 29 := by decide
theorem witness_EncodeChecksTheIdentifier : State.reset.cfg.Legal ∧
    (0x20000000 : Ident).getLsbD 29 = true ∧ (0x40000000 : Ident).getLsbD 30 = true ∧
    (0x80000000 : Ident).getLsbD 31 = true ∧ (0x1FFFFFFF : Ident).toNat < 2 ^ 29 ∧
    ([] : List Byte).length ≤ 8 := by decide
theorem witness_BothCausesGiveOneInvalidArgument : State.reset.cfg.Legal ∧
    8 < (List.replicate 9 (0 : Byte)).length ∧ 2 ^ 29 ≤ (0x20000000 : Ident).toNat ∧
    ([] : List Byte).length ≤ 8 ∧ (0 : Ident).toNat < 2 ^ 29 := by decide
theorem witness_EncodeIsPure : other.Legal ∧ ({ State.reset with cfg := other }).cfg = other := by decide
/-- With both markers above `0x1F`. -/
theorem witness_EncodedFrameLength : other.Legal ∧ (List.replicate 8 (0xFF : Byte)).length ≤ 8 ∧
    (0x1FFFFFFF : Ident).toNat < 2 ^ 29 ∧ 0x1F < other.frameStart.toNat ∧ 0x1F < other.escape.toNat := by decide
theorem witness_FrameStartOccursOnlyAtOffsetZero : other.Legal ∧
    encodeFrame other 0x7E [] = .ok [0x7E, 0x04, 0xFF, 0x01, 0x00, 0x00, 0x00] := by decide
theorem witness_EncodeCommutesWithTheDecoder : State.reset.cfg.Legal ∧
    ∀ id payload, Instr.tokEscStart ≠ .encode id payload := ⟨legal, nofun⟩
theorem witness_TokensFeedTheirBytes : (at0 (inFrame false)).cfg.Legal := legal
theorem witness_EscapeTokensPushOneByte : (at0 (inFrame false)).cfg.Legal ∧
    (at0 (inFrame false)).dec.st = .inPayload ∧ (at0 (inFrame false)).dec.pending = false := by decide
theorem witness_FrameIsItsTokens : other.Legal ∧ Encodable 0x7E [0xFF] := by decide
theorem witness_FeedFrame : (at0 (inFrame true)).cfg.Legal ∧
    (∀ id payload, Instr.feedUnescEsc ≠ .encode id payload) ∧ Instr.feedUnescEsc ≠ .reset :=
  ⟨legal, nofun, nofun⟩
theorem witness_OnlyFeedAndResetWriteTheDecoder : ∃ t, step (State.reset.withFetchWord 8 0xFF) = .next t ∧
    t.dec ≠ (State.reset.withFetchWord 8 0xFF).dec := ⟨_, rfl, by decide⟩
theorem witness_NoStepWritesTheConstants : ∃ t, step (State.reset.withFetchWord 8 0xFF) = .next t := ⟨_, rfl⟩
theorem witness_DecodeOfEncode : other.Legal ∧
    WellFormed other ⟨.inPayload, true⟩ .feedUnescStart = true ∧
    WellFormed other ⟨.expectLength, false⟩ (.tokLen 12) = true ∧
    WellFormed other ⟨.expectLength, false⟩ (.tokLen 4) = true ∧
    WellFormed other ⟨.inPayload, false⟩ (.tokLit 0x01) = true := by decide
theorem witness_DecodingLosesNoByte : other.Legal ∧
    decode other ⟨.inPayload, false⟩ ⟨.wireToken, [0xFF, 0x01, 0x00]⟩ = .instr .tokEscStart [0x00] := by decide
theorem witness_StepPerformsTheDecodedOperation :
    (State.reset.withFetchWord 16 0xFEFD).requests = ⟨.wireToken, [0xFE, 0xFD]⟩ :: [] ∧
    decode (State.reset.withFetchWord 16 0xFEFD).cfg (State.reset.withFetchWord 16 0xFEFD).dec.context
      ⟨.wireToken, [0xFE, 0xFD]⟩ = .instr .tokEscEsc [] := by decide
/-- Each of the four clauses. -/
theorem witness_StepWithoutAnOperation : State.reset.requests = [] ∧
    (Format.wireToken ∈ [Format.feedByte, .feedRequest, .wireToken] ∧
      ({ State.reset with requests := [⟨.wireToken, []⟩] }).requests = ⟨.wireToken, []⟩ :: []) ∧
    (([0, 0, 0] : List Byte).length < 4 ∧
      ({ State.reset with requests := [⟨.encodeRequest, [0, 0, 0]⟩] }).requests =
        ⟨.encodeRequest, [0, 0, 0]⟩ :: []) ∧
    ({ State.reset with requests := [⟨.reset, [0]⟩] }).requests = ⟨.reset, 0 :: []⟩ :: [] := by decide
/-- A configuration that meets every constraint, and one that breaks each. -/
theorem witness_IllegalConfigurationIsRefused : Config.standard.Legal ∧
    (4 ≤ ({ Config.standard with frameStart := 4 }).frameStart.toNat ∧
      ({ Config.standard with frameStart := 4 }).frameStart.toNat ≤ 12) ∧
    (4 ≤ ({ Config.standard with escape := 12 }).escape.toNat ∧
      ({ Config.standard with escape := 12 }).escape.toNat ≤ 12) ∧
    (({ Config.standard with frameStart := 0x7E }).frameStart ≠ 0xFF ∧
      ({ Config.standard with frameStart := 0x7E }).escape ≠ 0xFF) ∧
    ({ Config.standard with escape := 0xFF }).frameStart = ({ Config.standard with escape := 0xFF }).escape ∧
    ({ Config.standard with escapedStart := 0xFD }).escapedStart =
      ({ Config.standard with escapedStart := 0xFD }).escapedEscape ∧
    ({ Config.standard with escapedStart := 0xFF }).escapedStart = Config.standard.frameStart ∧
    ({ Config.standard with escapedEscape := 0xFF }).escapedEscape = Config.standard.frameStart := by decide
theorem witness_FeedKeepsTheTableOfStates : (at0 (inFrame true)).cfg.Legal ∧ (at0 (inFrame true)).dec.Shape :=
  ⟨legal, shape_inFrame true⟩
/-- A good state with a request pending and outputs behind it. -/
theorem witness_StepKeepsTheInvariant : ∃ s t : State, s.Inv ∧ step s = .next t ∧ s.events ≠ [] := by
  refine ⟨⟨.standard, inFrame false, [⟨.feedRequest, [4]⟩], [.message 0x123 [0xAA]], []⟩, _,
    ⟨by decide, shape_inFrame false, ?_, ?_⟩, rfl, by decide⟩
  · intro e he
    rw [List.mem_singleton.1 he]
    exact ⟨by decide, fun h => absurd rfl h⟩
  · exact nofun
theorem witness_NoInputStopsTheMachine : ∃ s : State, s.cfg.Legal ∧ s.requests ≠ [] ∧
    ∀ r ∈ s.requests, Carried r := by
  refine ⟨{ State.reset with requests := [⟨.wireToken, [0xFF, 0x0D]⟩, ⟨.encodeRequest, [0, 0, 0, 0]⟩, ⟨.reset, []⟩] },
    legal, by decide, ?_⟩
  simp only [List.mem_cons, List.not_mem_nil, or_false]
  rintro r (rfl | rfl | rfl)
  exacts [trivial, Nat.le_refl 4, rfl]
theorem witness_BytesOutsideAFrameAreDiscarded :
    State.reset.cfg.Legal ∧ State.reset.dec.st = .waiting ∧ State.reset.cfg.frameStart ∉ ([0xFE, 0x06] : List Byte) ∧
    ({ State.reset with requests := [⟨.feedRequest, [0xFE, 0x06]⟩] }).requests = ⟨.feedRequest, [0xFE, 0x06]⟩ :: [] ∧
    ([0xFE, 0x06] : List Byte) ≠ [] := by decide
/-- Either error, with bytes behind it. -/
theorem witness_ErrorsNeedAFrameStartBetween :
    (∃ t, exec (.feed 0x0D) (at0 expect0) = .next t ∧
      t.events = (at0 expect0).events ++ [.error .badLength]) ∧
    (∃ t, exec (.feed 0x00) (at0 (inFrame true)) = .next t ∧
      t.events = (at0 (inFrame true)).events ++ [.error .badEscape]) ∧
    (at0 expect0).cfg.frameStart ∉ ([0x33, 0x06] : List Byte) :=
  ⟨⟨_, rfl, rfl⟩, ⟨_, rfl, rfl⟩, by decide⟩
/-- Program P1b: the split is inside an escape. -/
theorem witness_EventsDoNotDependOnGrouping : State.reset.cfg.Legal ∧
    (∀ g ∈ ([[0xFF, 0x06, 0x23, 0x01, 0x00, 0x00, 0xAA, 0xFE], [0xFE]] : List (List Byte)), g ≠ []) ∧
    ([[0xFF, 0x06, 0x23, 0x01, 0x00, 0x00, 0xAA, 0xFE], [0xFE]] : List (List Byte)) ≠ [] := by decide
theorem witness_RoundTrip : ({ State.reset with cfg := other }).cfg.Legal ∧
    (0x1FFFFFFF : Ident).toNat < 2 ^ 29 ∧ (List.replicate 8 (0xFF : Byte)).length ≤ 8 := by decide
theorem witness_RoundTripByTokens : ({ State.reset with cfg := other }).cfg.Legal ∧
    Encodable 0x1FFFFFFF (List.replicate 8 0x7E) := by decide
theorem witness_Resynchronization : Config.standard.Legal ∧
    encodeFrame .standard 0x2 [] = .ok [0xFF, 0x04, 0x02, 0x00, 0x00, 0x00] := by decide
/-- Vector D-18: cut after four bytes. -/
theorem witness_TruncatedFrameIsSilent : Config.standard.Legal ∧
    encodeFrame .standard 0x2010 [0, 0] = .ok [0xFF, 0x06, 0x10, 0x20, 0x00, 0x00, 0x00, 0x00] ∧
    encodeFrame .standard 0x1 [] = .ok [0xFF, 0x04, 0x01, 0x00, 0x00, 0x00] ∧
    4 < ([0xFF, 0x06, 0x10, 0x20, 0x00, 0x00, 0x00, 0x00] : List Byte).length := by decide
theorem witness_PortOutputsCarryTheResult : (List.replicate 8 (1 : Byte)).length ≤ 8 ∧
    (∀ id payload, Event.error .badLength ≠ .message id payload) ∧ (List.replicate 26 (1 : Byte)).length ≤ 26 :=
  ⟨by decide, nofun, by decide⟩
/-- A lane below the length, lanes that differ above it, and the first length above 8. -/
theorem witness_PortRequestCarriesThePayload : 7 < (8 : BitVec 4).toNat ∧
    (∀ i < (2 : BitVec 4).toNat, (0x30201 : BitVec 64).extractLsb' (8 * i) 8 =
      (0x40201 : BitVec 64).extractLsb' (8 * i) 8) ∧
    8 < (9 : BitVec 4).toNat := by decide
theorem witness_RegistersHoldEveryState : (inFrame true).Shape := shape_inFrame true
/-- Registers with each unused code, and the requests of the three clauses. -/
theorem witness_UnusedCodesFaultAndResetRecovers :
    Config.standard.Legal ∧
    (∃ p : PortIn, p.rst = false ∧ p.fdValid = true) ∧ (∃ p : PortIn, p.rst = true ∧ p.fdValid = false) ∧
    (∃ p : PortIn, p.rst = true ∧ p.fdValid = true) ∧
    (∃ r : PortRegs, r.st = 3 ∧ r.abs = .error .unusedStateCode) ∧
    (∃ r : PortRegs, r.st ≠ 3 ∧ r.target ∈ ([1, 2, 3, 13, 14, 15] : List (BitVec 4))) ∧
    (∃ r : PortRegs, r.st ≠ 3 ∧ r.target ∉ ([1, 2, 3, 13, 14, 15] : List (BitVec 4)) ∧ 12 < r.count.toNat) :=
  ⟨by decide, ⟨⟨false, true, 0, false, 0, 0, 0⟩, rfl, rfl⟩, ⟨⟨true, false, 0, false, 0, 0, 0⟩, rfl, rfl⟩,
    ⟨⟨true, true, 0, false, 0, 0, 0⟩, rfl, rfl⟩,
    ⟨⟨3, 0, Vector.replicate 12 0, 0, 0, 0⟩, rfl, rfl⟩,
    ⟨⟨2, 0, Vector.replicate 12 0, 13, 0, 0⟩, by decide, by decide⟩,
    ⟨⟨2, 13, Vector.replicate 12 0, 4, 0, 0⟩, by decide, by decide, by decide⟩⟩
/-- Registers that hold a frame in progress; any request may stand at the ports. -/
theorem witness_PortStepRefinesTheMachine :
    (at0 ⟨.inPayload, [0, 0], some 4, true⟩).cfg.Legal ∧ (at0 ⟨.inPayload, [0, 0], some 4, true⟩).dec.Shape ∧
    (⟨2, 2, Vector.replicate 12 0, 4, 1, 0⟩ : PortRegs).abs =
      .ok (at0 ⟨.inPayload, [0, 0], some 4, true⟩).dec :=
  ⟨legal, .inr (.inr ⟨rfl, 4, rfl, by decide, by decide, by decide⟩), rfl⟩
/-- The same registers, with RESET beside a FEED and beside an ENCODE. -/
theorem witness_FeedBesideResetIsAccepted :
    Config.standard.Legal ∧ DecoderState.Shape ⟨.inPayload, [0, 0], some 4, true⟩ ∧
    (⟨2, 2, Vector.replicate 12 0, 4, 1, 0⟩ : PortRegs).abs = .ok ⟨.inPayload, [0, 0], some 4, true⟩ ∧
    (⟨true, true, 0xFE, true, 0x123, 2, 0xFFAA⟩ : PortIn).rst = true ∧
    (⟨true, true, 0xFE, true, 0x123, 2, 0xFFAA⟩ : PortIn).fdValid = true :=
  ⟨legal, .inr (.inr ⟨rfl, 4, rfl, by decide, by decide, by decide⟩), rfl, rfl, rfl⟩

end Sys2Proof.Tests
end

section
/-! SUPPORT. The scope of the model (00_scope.md): which configurations give an operation a meaning. -/

namespace Sys2Proof

/-- A configuration is illegal exactly where it breaks one of K-a to K-e (R8). -/
theorem Config.not_legal_iff (c : Config) : ¬c.Legal ↔
    (4 ≤ c.frameStart.toNat ∧ c.frameStart.toNat ≤ 12) ∨
    (4 ≤ c.escape.toNat ∧ c.escape.toNat ≤ 12) ∨
    (c.frameStart ≠ 0xFF ∧ c.escape ≠ 0xFF) ∨
    c.frameStart = c.escape ∨ c.escapedStart = c.escapedEscape ∨
    c.escapedStart = c.frameStart ∨ c.escapedEscape = c.frameStart := by
  simp only [Config.Legal, Config.MarkersOutsideLengths, Config.AllOnesIsMarker, Config.MarkersDiffer,
    Config.SubstitutesDiffer, Config.SubstitutesNotStart, Decidable.not_and_iff_not_or_not, not_or,
    Decidable.not_not, ne_eq, or_assoc]

namespace Machine

/-- No operation ends otherwise than by `complete`, which is where the configuration is tested. -/
theorem exec_eq_complete (i : Instr) (s : State) : ∃ t, exec i s = complete s t := by
  cases i <;> exact ⟨_, rfl⟩

theorem exec_of_legal {s : State} (h : s.cfg.Legal) (i : Instr) : ∃ t, exec i s = .next t := by
  obtain ⟨t, ht⟩ := exec_eq_complete i s
  exact ⟨t, ht.trans (complete_of_legal h t)⟩

theorem exec_of_not_legal {s : State} (h : ¬s.cfg.Legal) (i : Instr) :
    exec i s = .refused .illegalConfiguration := by
  obtain ⟨t, ht⟩ := exec_eq_complete i s
  exact ht.trans (complete_of_not_legal h t)

/-- Settles O39: every operation ends in `complete`, and the two clauses are the two sides of its test. -/
theorem illegalConfigurationIsRefused : Obligations.IllegalConfigurationIsRefused := by
  intro s i
  constructor
  · rintro ⟨hStart, hEscape, hOnes, hMarkers, hSubstitutes, hSubStart, hSubEscape⟩
    exact exec_of_legal ⟨⟨hStart, hEscape⟩, hOnes, hMarkers, hSubstitutes, hSubStart, hSubEscape⟩ i
  · intro hBroken
    exact exec_of_not_legal (s.cfg.not_legal_iff.mpr hBroken) i

end Machine

end Sys2Proof
end

section
/-! SUPPORT. FEED as the decode map writes it: the transition of the row that R65 selects; and everything an
operation of the machine can do. -/

namespace Sys2Proof.Machine

variable {c : Config} {d : DecoderState} {b : Byte} {s t : State} {i : Instr}

/-! ### The rows of the decode map -/

/-- The transition of the row of class `k` for the byte `b` (41_decoder.md R121 to R129). -/
def rowOf (c : Config) (d : DecoderState) (b : Byte) : ByteClass → DecoderState × Event
  | .sof => rowSof
  | .ignore => rowIgnore d
  | .len => rowLen b
  | .badlen => rowBadlen
  | .unescStart => rowUnescStart c d
  | .unescEsc => rowUnescEsc c d
  | .badesc => rowBadesc
  | .esc => rowEsc d
  | .data => rowData c d b

/-- FEED is the transition of the row that the decode map selects (R65, R120). -/
theorem feed_eq_rowOf (c : Config) (d : DecoderState) (b : Byte) :
    feed c d b = rowOf c d b (classify c d.context b) := by
  cases hst : d.st <;>
    simp only [feed, classify, DecoderState.context_st, DecoderState.context_pending, hst] <;>
    split_ifs <;> rfl

/-- A FEED named by its row is the FEED of its byte, whichever row R65 selects. -/
theorem State.feedRow_rowOf (s : State) (k : ByteClass) (b : Byte) :
    s.feedRow k b (rowOf s.cfg s.dec b k) = s.feed b := by
  obtain ⟨rfl, h⟩ | ⟨-, h⟩ := s.feedRow_cases k b (rowOf s.cfg s.dec b k)
  · rw [h, ← feed_eq_rowOf]; rfl
  · exact h

/-! ### What an operation does -/

theorem State.feedBytes_singleton (s : State) (b : Byte) : s.feedBytes [b] = s.feed b := rfl

theorem exec_encode (h : s.cfg.Legal) (id : Ident) (payload : List Byte) :
    exec (.encode id payload) s = .next (s.addResult (encodeFrame s.cfg id payload)) :=
  complete_of_legal h _

theorem exec_reset (h : s.cfg.Legal) : exec .reset s = .next { s with dec := .waiting0 } :=
  complete_of_legal h _

theorem exec_feed (h : s.cfg.Legal) (b : Byte) : exec (.feed b) s = .next (s.feed b) :=
  complete_of_legal h _

/-- A class row is the FEED of the byte its request carries, in every state. -/
theorem exec_row (h : s.cfg.Legal) (k : ByteClass) (b : Byte) :
    exec (k.row b) s = .next (s.feedBytes (encode s.cfg (k.row b)).bytes) := by
  have hrow (x : Byte) : complete s (s.feedRow k x (rowOf s.cfg s.dec x k)) = .next (s.feedBytes [x]) := by
    rw [complete_of_legal h, s.feedRow_rowOf, s.feedBytes_singleton]
  cases k <;> exact hrow _

/-- Every operation but ENCODE and RESET is the FEEDs of the bytes its request carries (log 6, 7). -/
theorem exec_eq_feedBytes (h : s.cfg.Legal) (hEncode : ∀ id payload, i ≠ .encode id payload)
    (hReset : i ≠ .reset) : exec i s = .next (s.feedBytes (encode s.cfg i).bytes) := by
  cases i with
  | feedSof => exact exec_row h .sof 0
  | feedIgnore b => exact exec_row h .ignore b
  | feedLen b => exact exec_row h .len b
  | feedBadlen b => exact exec_row h .badlen b
  | feedUnescStart => exact exec_row h .unescStart 0
  | feedUnescEsc => exact exec_row h .unescEsc 0
  | feedBadesc b => exact exec_row h .badesc b
  | feedEsc => exact exec_row h .esc 0
  | feedData b => exact exec_row h .data b
  | encode id payload => exact absurd rfl (hEncode id payload)
  | feed b => exact exec_feed h b
  | reset => exact absurd rfl hReset
  | tokSof | tokLen | tokEscStart | tokEscEsc | tokLit => exact complete_of_legal h _

/-- Everything an operation can do: put out a result, reset the decoder, or feed the bytes it carries. -/
theorem exec_cases (h : s.cfg.Legal) (i : Instr) :
    (∃ id payload, i = .encode id payload ∧
      exec i s = .next (s.addResult (encodeFrame s.cfg id payload))) ∨
    (i = .reset ∧ exec i s = .next { s with dec := .waiting0 }) ∨
    ((∀ id payload, i ≠ .encode id payload) ∧ i ≠ .reset ∧
      exec i s = .next (s.feedBytes (encode s.cfg i).bytes)) := by
  by_cases hEncode : ∃ id payload, i = .encode id payload
  · obtain ⟨id, payload, rfl⟩ := hEncode
    exact .inl ⟨id, payload, rfl, exec_encode h id payload⟩
  by_cases hReset : i = .reset
  · subst hReset
    exact .inr (.inl ⟨rfl, exec_reset h⟩)
  · have hEncode' : ∀ id payload, i ≠ .encode id payload := fun id payload e => hEncode ⟨id, payload, e⟩
    exact .inr (.inr ⟨hEncode', hReset, exec_eq_feedBytes h hEncode' hReset⟩)

/-- An operation answers a next state only under legal parameters. -/
theorem legal_of_exec (h : exec i s = .next t) : s.cfg.Legal := by
  by_contra hBroken
  rw [exec_of_not_legal hBroken] at h
  cases h

/-- No operation writes the build parameters (R29). -/
theorem exec_cfg (h : exec i s = .next t) : t.cfg = s.cfg := by
  obtain ⟨_, _, -, he⟩ | ⟨-, he⟩ | ⟨-, -, he⟩ := exec_cases (legal_of_exec h) i <;>
    (rw [he] at h; cases h; rfl)

/-- ENCODE does not write the decoder state (R28). -/
theorem exec_encode_dec {id : Ident} {payload : List Byte} (h : exec (.encode id payload) s = .next t) :
    t.dec = s.dec := by
  rw [exec_encode (legal_of_exec h)] at h
  cases h
  rfl

end Sys2Proof.Machine
end

section
/-! SUPPORT. The table of reachable decoder states (10_state.md R25) and the forms of the events, kept by
every FEED. -/

namespace Sys2Proof.Machine

variable {c : Config} {d : DecoderState} {b x : Byte}

/-! ### The three shapes -/

theorem DecoderState.shape_waiting0 : DecoderState.waiting0.Shape := .inl ⟨rfl, rfl, rfl, rfl⟩

theorem DecoderState.shape_expectLength : DecoderState.Shape ⟨.expectLength, [], none, false⟩ :=
  .inr (.inl ⟨rfl, rfl, rfl, rfl⟩)

theorem DecoderState.shape_inPayload {buf : List Byte} {n : Nat} (hlo : 4 ≤ n) (hhi : n ≤ 12)
    (hbuf : buf.length < n) (pending : Bool) :
    DecoderState.Shape ⟨.inPayload, buf, some n, pending⟩ := .inr (.inr ⟨rfl, n, rfl, hlo, hhi, hbuf⟩)

/-- A target that is set lies in 4..12 (R23, R25). -/
theorem DecoderState.Shape.target_range (h : d.Shape) {n : Nat} (hn : d.target = some n) :
    4 ≤ n ∧ n ≤ 12 := by
  obtain ⟨-, -, ht, -⟩ | ⟨-, -, ht, -⟩ | ⟨-, m, ht, hlo, hhi, -⟩ := h <;> rw [ht] at hn <;> cases hn
  exact ⟨hlo, hhi⟩

/-- The buffer is empty, or a frame is in progress and the buffer is shorter than its target (R25). -/
theorem DecoderState.Shape.buf_length_le (h : d.Shape) : d.buf.length ≤ 12 := by
  obtain ⟨-, hb, -⟩ | ⟨-, hb, -⟩ | ⟨-, m, -, -, hhi, hlt⟩ := h
  · simp [hb]
  · simp [hb]
  · omega

/-- In `InPayload` a target is set, and the buffer is shorter (R25). -/
theorem DecoderState.Shape.inPayload (h : d.Shape) (hst : d.st = .inPayload) :
    ∃ n, d.target = some n ∧ 4 ≤ n ∧ n ≤ 12 ∧ d.buf.length < n := by
  obtain ⟨hst', -⟩ | ⟨hst', -⟩ | ⟨-, ht⟩ := h
  · cases hst.symm.trans hst'
  · cases hst.symm.trans hst'
  · exact ht

/-- Outside `InPayload` the flag is clear (R24, R25). -/
theorem DecoderState.Shape.pending_eq_false (h : d.Shape) (hst : d.st ≠ .inPayload) : d.pending = false := by
  obtain ⟨-, -, -, hp⟩ | ⟨-, -, -, hp⟩ | ⟨hst', -⟩ := h
  · exact hp
  · exact hp
  · exact absurd hst' hst

/-! ### The forms of an event -/

theorem applyPolicy_ok (raw : Ident) {payload : List Byte} (h : payload.length ≤ 8) :
    (applyPolicy c.idPolicy raw payload).Ok c := by
  by_cases ht : topBits raw = 0
  · simp only [applyPolicy, if_pos ht]
    exact ⟨h, fun _ => ht⟩
  · simp only [applyPolicy, if_neg ht]
    cases hp : c.idPolicy with
    | pass => exact ⟨h, fun hne => absurd hp hne⟩
    | mask => exact ⟨h, fun _ => topBits_mask raw⟩
    | drop => trivial

/-- A buffer of at most 12 bytes gives a message of at most 8 (R131, R71). -/
theorem message_ok {nb : List Byte} (h : nb.length ≤ 12) : (message c nb).Ok c :=
  applyPolicy_ok _ (by rw [List.length_drop]; omega)

/-! ### FEED -/

/-- PUSH in a frame in progress keeps the table of R25 and puts out an event of R71. -/
theorem push_shape_ok (h : d.Shape) (hst : d.st = .inPayload) (x : Byte) :
    (push c d x).1.Shape ∧ (push c d x).2.Ok c := by
  obtain ⟨n, hn, hlo, hhi, hlt⟩ := h.inPayload hst
  obtain ⟨ht, hp⟩ | ⟨ht, hp⟩ := push_cases c d x <;> rw [hp]
  · have hlen : (d.buf ++ [x]).length ≤ 12 := by
      rw [List.length_append, List.length_singleton]; omega
    exact ⟨DecoderState.shape_waiting0, message_ok hlen⟩
  · have hlen : (d.buf ++ [x]).length < n := by
      have : n ≠ d.buf.length + 1 := fun e => ht (e ▸ hn)
      rw [List.length_append, List.length_singleton]; omega
    rw [hn]
    exact ⟨DecoderState.shape_inPayload hlo hhi hlen false, trivial⟩

/-- A FEED keeps the table of R25 and puts out an event of R71. -/
theorem feed_shape_ok (h : d.Shape) (b : Byte) : (feed c d b).1.Shape ∧ (feed c d b).2.Ok c := by
  rcases feed_cases c d b with ⟨-, hf⟩ | ⟨-, -, hf⟩ | ⟨-, -, hl, hf⟩ | ⟨-, -, -, hf⟩ |
    ⟨-, hst, -, -, hf⟩ | ⟨-, hst, -, -, -, hf⟩ | ⟨-, -, -, -, -, hf⟩ | ⟨-, hst, -, -, hf⟩ |
    ⟨-, hst, -, -, hf⟩ <;> rw [hf]
  · exact ⟨DecoderState.shape_expectLength, trivial⟩
  · exact ⟨h, trivial⟩
  · exact ⟨DecoderState.shape_inPayload hl.1 hl.2 (by rw [List.length_nil]; omega) false, trivial⟩
  · exact ⟨DecoderState.shape_waiting0, trivial⟩
  · exact push_shape_ok h hst _
  · exact push_shape_ok h hst _
  · exact ⟨DecoderState.shape_waiting0, trivial⟩
  · exact ⟨.inr (.inr ⟨hst, h.inPayload hst⟩), trivial⟩
  · exact push_shape_ok h hst _

/-- The FEEDs of a sequence of bytes keep the table of R25 and put out events of R71. -/
theorem feedAll_shape_ok (h : d.Shape) (bs : List Byte) :
    (feedAll c d bs).1.Shape ∧ ∀ e ∈ (feedAll c d bs).2, e.Ok c := by
  induction bs generalizing d with
  | nil => exact ⟨h, nofun⟩
  | cons b bs ih =>
    obtain ⟨hshape, hevent⟩ := feed_shape_ok (c := c) h b
    obtain ⟨hshapes, hevents⟩ := ih hshape
    exact ⟨hshapes, List.forall_mem_cons.mpr ⟨hevent, hevents⟩⟩

/-! ### The flag -/

@[simp] theorem push_pending (c : Config) (d : DecoderState) (x : Byte) : (push c d x).1.pending = false := by
  obtain ⟨-, hp⟩ | ⟨-, hp⟩ := push_cases c d x <;> simp [hp, DecoderState.waiting0]

/-- Each row's transition writes the flag as its `Flag written` line says (R121 to R129). -/
theorem rowOf_pending (c : Config) (d : DecoderState) (b : Byte) (k : ByteClass) :
    (rowOf c d b k).1.pending = pendingAfter k d.pending := by
  cases k with
  | sof | ignore | len | badlen | badesc | esc => rfl
  | unescStart | unescEsc | data => exact push_pending ..

theorem feed_pending (c : Config) (d : DecoderState) (b : Byte) :
    (feed c d b).1.pending = pendingAfter (classify c d.context b) d.pending := by
  rw [feed_eq_rowOf, rowOf_pending]

/-- Under legal parameters a byte is FEED.ESC exactly in `InPayload`, with the flag clear, if it is `ESCAPE`
(R65). -/
theorem classify_eq_esc_iff (h : c.Legal) (x : Context) (b : Byte) :
    classify c x b = .esc ↔ x.st = .inPayload ∧ x.pending = false ∧ b = c.escape := by
  obtain ⟨-, -, hMarkers, -⟩ := h
  constructor
  · intro hk
    have hrow := classify_cases c x b
    simp only [hk, reduceCtorEq, and_false, or_false, false_or, and_true] at hrow
    exact hrow.2
  · rintro ⟨hst, hp, rfl⟩
    simp [classify, hMarkers.symm, hst, hp]

/-- A byte is FEED.IGNORE only in `Waiting` (R65). -/
theorem waiting_of_classify_ignore {x : Context} (hk : classify c x b = .ignore) : x.st = .waiting := by
  have hrow := classify_cases c x b
  simp only [hk, reduceCtorEq, and_false, or_false, false_or, and_true] at hrow
  exact hrow.2

theorem pendingAfter_eq_true_iff (k : ByteClass) (old : Bool) :
    pendingAfter k old = true ↔ k = .esc ∨ (k = .ignore ∧ old = true) := by
  cases k <;> simp [pendingAfter]

/-- After a FEED the flag is set exactly if the byte was FEED.ESC: the only class that leaves it is FEED.IGNORE,
in `Waiting`, where it is clear (R24, R25). -/
theorem feed_pending_iff (h : d.Shape) (b : Byte) :
    (feed c d b).1.pending = true ↔ classify c d.context b = .esc := by
  rw [feed_pending, pendingAfter_eq_true_iff, or_iff_left]
  rintro ⟨hk, hp⟩
  have hst : d.st = .waiting := waiting_of_classify_ignore hk
  rw [h.pending_eq_false (hst.trans_ne (by decide))] at hp
  cases hp

end Sys2Proof.Machine
end

section
/-! SUPPORT. The form of an encoded frame (30_encoding.md R64, R67). -/

namespace Sys2Proof.Machine

variable {c : Config}

/-- An escaped byte takes one or two bytes (R62). -/
theorem esc_length (c : Config) (x : Byte) : 1 ≤ (esc c x).length ∧ (esc c x).length ≤ 2 := by
  obtain ⟨-, he⟩ | ⟨-, -, he⟩ | ⟨-, -, he⟩ := esc_cases c x <;> simp [he]

theorem escaped_length (c : Config) (xs : List Byte) :
    xs.length ≤ (escaped c xs).length ∧ (escaped c xs).length ≤ 2 * xs.length := by
  induction xs with
  | nil => exact ⟨Nat.le_refl 0, Nat.le_refl 0⟩
  | cons x xs ih =>
    have hx := esc_length c x
    simp only [escaped_cons, List.length_append, List.length_cons]
    omega

/-- No escape sequence holds `FRAME_START`: the markers differ and no substitute is `FRAME_START` (R67). -/
theorem frameStart_notMem_esc (h : c.Legal) (x : Byte) : c.frameStart ∉ esc c x := by
  obtain ⟨-, -, hMarkers, -, hSubStart, hSubEscape⟩ := h
  obtain ⟨-, he⟩ | ⟨-, -, he⟩ | ⟨hx, -, he⟩ := esc_cases c x <;> rw [he]
  · simp [hMarkers, hSubStart.symm]
  · simp [hMarkers, hSubEscape.symm]
  · simp [Ne.symm hx]

theorem frameStart_notMem_escaped (h : c.Legal) (xs : List Byte) : c.frameStart ∉ escaped c xs := by
  simp only [escaped, List.mem_flatMap, not_exists, not_and]
  exact fun x _ => frameStart_notMem_esc h x

/-- A LENGTH byte is no `FRAME_START` (R8, R67). -/
theorem lengthByte_ne_frameStart (h : c.Legal) {n : Nat} (hn : n ≤ 8) : lengthByte n ≠ c.frameStart := by
  obtain ⟨⟨hStart, -⟩, -⟩ := h
  intro e
  have hlen := lengthByte_toNat hn
  rw [e] at hlen
  omega

/-- A frame has 6 to 26 bytes (R64). -/
theorem frame_length_range (c : Config) (id : Ident) {payload : List Byte} (h : payload.length ≤ 8) :
    6 ≤ (frame c id payload).length ∧ (frame c id payload).length ≤ 26 := by
  have hlen := escaped_length c (region id payload)
  rw [region_length] at hlen
  simp only [frame, List.length_cons]
  omega

/-- After its first byte a frame holds no `FRAME_START` (R67). -/
theorem frameStart_notMem_frame_tail (h : c.Legal) (id : Ident) {payload : List Byte}
    (hn : payload.length ≤ 8) : c.frameStart ∉ (frame c id payload).tail := by
  rw [frame, List.tail_cons, List.mem_cons, not_or]
  exact ⟨(lengthByte_ne_frameStart h hn).symm, frameStart_notMem_escaped h _⟩

/-- Every result of the encoder is of a form of R72. -/
theorem encodeFrame_ok (h : c.Legal) (id : Ident) (payload : List Byte) : (encodeFrame c id payload).Ok c := by
  by_cases he : Encodable id payload
  · rw [encodeFrame_of_encodable he]
    obtain ⟨hlo, hhi⟩ := frame_length_range c id he.1
    exact ⟨hlo, hhi, rfl, frameStart_notMem_frame_tail h id he.1⟩
  · rw [encodeFrame_of_not_encodable he]
    trivial

end Sys2Proof.Machine
end

section
/-! SUPPORT. The statements about the state (10_state.md): reset, the invariant, and who writes what. -/

namespace Sys2Proof.Machine

variable {s t : State} {i : Instr}

/-- The invariant does not speak of the pending requests. -/
theorem State.Inv.setRequests (h : s.Inv) (rest : List Request) : { s with requests := rest }.Inv :=
  ⟨h.legal, h.shape, h.events, h.results⟩

/-- Every operation keeps the invariant. -/
theorem exec_keeps_inv (h : s.Inv) (hexec : exec i s = .next t) : t.Inv := by
  obtain ⟨id, payload, -, he⟩ | ⟨-, he⟩ | ⟨-, -, he⟩ := exec_cases h.legal i <;>
    rw [he] at hexec <;> cases hexec
  · refine ⟨h.legal, h.shape, h.events, ?_⟩
    simp only [State.addResult_results, List.forall_mem_append, List.forall_mem_singleton]
    exact ⟨h.results, encodeFrame_ok h.legal id payload⟩
  · exact ⟨h.legal, DecoderState.shape_waiting0, h.events, h.results⟩
  · obtain ⟨hshape, hevents⟩ := feedAll_shape_ok (c := s.cfg) h.shape (encode s.cfg i).bytes
    exact ⟨h.legal, hshape, List.forall_mem_append.mpr ⟨h.events, hevents⟩, h.results⟩

/-- Settles O41: an idle step and the end of a group leave what the invariant speaks of, and every operation
keeps it. -/
theorem stepKeepsTheInvariant : Obligations.StepKeepsTheInvariant := by
  intro s t hinv hstep
  obtain ⟨-, rfl⟩ | ⟨rest, -, rfl⟩ | ⟨i, rest, -, hexec⟩ := step_cases hstep
  · exact hinv
  · exact hinv.setRequests rest
  · exact exec_keeps_inv (hinv.setRequests rest) hexec

/-- Settles O3: at reset the decoder is in `Waiting0` and nothing has been put out. -/
theorem resetMeetsTheInvariant : Obligations.ResetMeetsTheInvariant where
  legal := by decide
  shape := DecoderState.shape_waiting0
  events := nofun
  results := nofun

/-- Settles O1: RESET writes `Waiting0`, which is also the decoder state at power-on. -/
theorem resetGivesEveryFieldItsValue : Obligations.ResetGivesEveryFieldItsValue :=
  ⟨⟨rfl, rfl, rfl, rfl⟩, fun _ h => ⟨_, exec_reset h, rfl, rfl, rfl, rfl, rfl, rfl⟩⟩

/-- Every operation completes and keeps the table of R25. -/
theorem exec_keeps_shape (hlegal : s.cfg.Legal) (hshape : s.dec.Shape) (i : Instr) :
    ∃ t, exec i s = .next t ∧ t.dec.Shape := by
  obtain ⟨id, payload, -, he⟩ | ⟨-, he⟩ | ⟨-, -, he⟩ := exec_cases hlegal i
  · exact ⟨_, he, hshape⟩
  · exact ⟨_, he, DecoderState.shape_waiting0⟩
  · exact ⟨_, he, (feedAll_shape_ok hshape _).1⟩

/-- Settles O40: ENCODE leaves the decoder state, RESET writes `Waiting0`, and the FEEDs of any bytes keep the
table, which bounds the buffer. -/
theorem feedKeepsTheTableOfStates : Obligations.FeedKeepsTheTableOfStates := by
  intro s i hlegal hshape
  obtain ⟨t, he, ht⟩ := exec_keeps_shape hlegal hshape i
  exact ⟨t, he, ht, ht.buf_length_le⟩

/-- Settles O31: every operation but ENCODE and RESET is the FEEDs of the bytes its request carries. -/
theorem feedFrame : Obligations.FeedFrame := by
  intro s i hlegal hEncode hReset
  exact ⟨_, _, exec_eq_feedBytes hlegal hEncode hReset, rfl, rfl, rfl, rfl, feedAll_events_length ..⟩

/-- Settles O32: a step that performs no operation, and a step that performs ENCODE, leave the decoder
state. -/
theorem onlyFeedAndResetWriteTheDecoder : Obligations.OnlyFeedAndResetWriteTheDecoder := by
  intro s t hstep hdec
  obtain ⟨-, rfl⟩ | ⟨rest, -, rfl⟩ | ⟨i, rest, hfetch, hexec⟩ := step_cases hstep
  · exact absurd rfl hdec
  · exact absurd rfl hdec
  · refine ⟨i, rest, hfetch, hexec, ?_⟩
    rintro id payload rfl
    exact hdec (exec_encode_dec (s := { s with requests := rest }) hexec)

/-- Settles O33: a step writes the requests only, or performs an operation, which leaves the parameters. -/
theorem noStepWritesTheConstants : Obligations.NoStepWritesTheConstants := by
  intro s t hstep
  obtain ⟨-, rfl⟩ | ⟨rest, -, rfl⟩ | ⟨i, rest, -, hexec⟩ := step_cases hstep
  · rfl
  · rfl
  · exact exec_cfg (s := { s with requests := rest }) hexec

/-- Settles O19: the flag is what the row's `Flag written` line gives, and FEED.ESC is the one row that
sets it. -/
theorem pendingIsSetOnlyByAnEscape : Obligations.PendingIsSetOnlyByAnEscape := by
  intro s b hlegal hshape
  have hafter : (s.feed b).dec.Shape := (feed_shape_ok hshape b).1
  refine ⟨s.feed b, exec_feed hlegal b, ?_, feed_pending .., fun hst => ?_, _, exec_reset hlegal, rfl⟩
  · exact (feed_pending_iff hshape b).trans (classify_eq_esc_iff hlegal s.dec.context b)
  · exact hafter.pending_eq_false (hst.trans_ne (by decide))

end Sys2Proof.Machine
end

section
/-! SUPPORT. The registers of the port realisation: what they hold after a write, and their unused codes
(10_state.md R21 to R24, 93_implementation_defined.md I10). -/

namespace Sys2Proof.Machine

variable {c : Config} {r : PortRegs} {p : PortIn} {d : DecoderState}

/-! ### The codes -/

@[simp] theorem stOfCode_stCode (st : St) : stOfCode (stCode st) = some st := by cases st <;> rfl

theorem stOfCode_eq_none_iff : ∀ v : BitVec 2, stOfCode v = none ↔ v = 3 := by decide

theorem targetOfCode_eq_none_iff :
    ∀ v : BitVec 4, targetOfCode v = none ↔ v ∈ ([1, 2, 3, 13, 14, 15] : List (BitVec 4)) := by decide

/-- A target that is unset or in 4..12 is read back from its code (R23). -/
theorem targetOfCode_targetCode {o : Option Nat} (h : ∀ n, o = some n → 4 ≤ n ∧ n ≤ 12) :
    targetOfCode (targetCode o) = some o := by
  cases o with
  | none => rfl
  | some n =>
    obtain ⟨hlo, hhi⟩ := h n rfl
    have hval : (BitVec.ofNat 4 n).toNat = n := by rw [BitVec.toNat_ofNat]; omega
    have hne : BitVec.ofNat 4 n ≠ 0 := fun e => by rw [e] at hval; simp at hval; omega
    rw [targetCode, targetOfCode, if_neg hne, hval, if_pos ⟨hlo, hhi⟩]

/-! ### Reading the registers -/

theorem PortRegs.abs_of_codes {st : St} {target : Option Nat} (hst : stOfCode r.st = some st)
    (ht : targetOfCode r.target = some target) (hc : r.count.toNat ≤ 12) :
    r.abs = .ok ⟨st, r.cells.toList.take r.count.toNat, target, r.pending = 1⟩ := by
  simp only [PortRegs.abs, hst, ht, if_neg (Nat.not_lt.mpr hc)]

theorem PortRegs.abs_of_unused_st (hst : r.st = 3) : r.abs = .error .unusedStateCode := by
  simp only [PortRegs.abs, (stOfCode_eq_none_iff r.st).mpr hst]

theorem PortRegs.abs_of_unused_target (hst : r.st ≠ 3)
    (ht : r.target ∈ ([1, 2, 3, 13, 14, 15] : List (BitVec 4))) : r.abs = .error .unusedTargetCode := by
  obtain ⟨st, hst⟩ := Option.ne_none_iff_exists'.mp (mt (stOfCode_eq_none_iff r.st).mp hst)
  simp only [PortRegs.abs, hst, (targetOfCode_eq_none_iff r.target).mpr ht]

theorem PortRegs.abs_of_unused_count (hst : r.st ≠ 3)
    (ht : r.target ∉ ([1, 2, 3, 13, 14, 15] : List (BitVec 4))) (hc : 12 < r.count.toNat) :
    r.abs = .error .unusedCountCode := by
  obtain ⟨st, hst⟩ := Option.ne_none_iff_exists'.mp (mt (stOfCode_eq_none_iff r.st).mp hst)
  obtain ⟨target, ht⟩ := Option.ne_none_iff_exists'.mp (mt (targetOfCode_eq_none_iff r.target).mp ht)
  simp only [PortRegs.abs, hst, ht, if_pos hc]

/-! ### Writing the registers -/

@[simp] theorem PortRegs.store_count : (r.store d).count = BitVec.ofNat 4 d.buf.length := rfl
@[simp] theorem PortRegs.store_pending : (r.store d).pending = BitVec.ofBool d.pending := rfl

/-- The cells below the count hold the buffer, whatever the others hold (R22). -/
theorem PortRegs.store_cells_take (h : d.buf.length ≤ 12) :
    (r.store d).cells.toList.take d.buf.length = d.buf := by
  apply List.ext_getElem
  · simp [h]
  · intro j _ hj
    simp [PortRegs.store, hj]

/-- The registers hold every decoder state of the table of R25 (R21 to R24). -/
theorem PortRegs.abs_store (h : d.Shape) : (r.store d).abs = .ok d := by
  have hbuf := h.buf_length_le
  have hcount : (r.store d).count.toNat = d.buf.length := by
    rw [PortRegs.store_count, BitVec.toNat_ofNat]; omega
  have hpending : decide ((r.store d).pending = 1) = d.pending := by
    rw [PortRegs.store_pending]
    cases d.pending <;> rfl
  rw [PortRegs.abs_of_codes (stOfCode_stCode d.st)
    (targetOfCode_targetCode fun _ => h.target_range) (hcount.trans_le hbuf),
    hcount, PortRegs.store_cells_take hbuf, hpending]

/-- Settles O53, by the read-back of each register. -/
theorem registersHoldEveryState : Obligations.RegistersHoldEveryState := fun _ _ h => PortRegs.abs_store h

/-! ### Unused codes -/

/-- A byte fed to `Waiting0` starts a frame or is discarded (R121, R122). -/
theorem feed_waiting0 (c : Config) (b : Byte) :
    feed c .waiting0 b =
      (if b = c.frameStart then ⟨.expectLength, [], none, false⟩ else .waiting0, .none) := by
  by_cases hb : b = c.frameStart
  · rw [if_pos hb, hb, feed_frameStart]
  · rw [if_neg hb, feed, if_neg hb]; rfl

/-- Settles O54: a FEED reads the registers and reports their fault; RESET writes them without reading; of both,
the one that the free order puts first decides. -/
theorem unusedCodesFaultAndResetRecovers : Obligations.UnusedCodesFaultAndResetRecovers := by
  intro c r p hlegal
  refine ⟨fun hr hf => ?_, fun hr hf => ?_, fun hr hf f habs => ?_⟩
  · have hfault {f : Fault} (habs : r.abs = .error f) : portStep c r p = .fault f :=
      portStep_of_fault hlegal hr hf (PortRegs.feed_of_fault habs)
    exact ⟨fun hst => hfault (PortRegs.abs_of_unused_st hst),
      fun hst ht => hfault (PortRegs.abs_of_unused_target hst ht),
      fun hst ht hc => hfault (PortRegs.abs_of_unused_count hst ht hc)⟩
  · exact ⟨_, _, portStep_of_reset hlegal hr hf, rfl, PortRegs.abs_reset⟩
  · split
    next hfirst =>
      refine ⟨_, _, portStep_of_both hlegal hr hf (PortRegs.resetAndFeed_of_resetFirst hfirst), ?_, ?_⟩
      · rw [feed_waiting0]; rfl
      · rw [PortRegs.abs_store (feed_shape_ok DecoderState.shape_waiting0 _).1, feed_waiting0]; rfl
    next hfirst =>
      exact portStep_of_both_fault hlegal hr hf
        (PortRegs.resetAndFeed_of_fault (Bool.not_eq_true _ ▸ hfirst) habs)

end Sys2Proof.Machine
end

section
/-! SUPPORT. The step of a decoded request, runs of steps, and the run of a group of fed bytes (30_encoding.md
R75). -/

namespace Sys2Proof.Machine

variable {s t : State} {rest : List Request}

/-! ### One step -/

theorem step_of_decode {r : Request} {i : Instr} {more : List Byte} (hreq : s.requests = r :: rest)
    (hdec : decode s.cfg s.dec.context r = .instr i more) :
    step s = exec i { s with requests := requeue r.format more rest } := by
  have hfetch : s.fetch = .fetched i (requeue r.format more rest) := by
    simp only [State.fetch, hreq, hdec]
  simp only [step, hfetch]

/-- A step with a group of fed bytes first takes one byte of it (R51, R75). -/
theorem step_feedGroup (h : s.cfg.Legal) (b : Byte) (bs : List Byte) (rest : List Request) :
    step { s with requests := requeue .feedRequest (b :: bs) rest } =
      .next { s.feed b with requests := requeue .feedRequest bs rest } := by
  have hexec := exec_feed (s := { s with requests := requeue .feedRequest bs rest }) h b
  exact (step_of_decode rfl rfl).trans hexec

/-! ### Runs -/

@[simp] theorem runSteps_zero (s : State) : runSteps 0 s = .next s := rfl

theorem runSteps_succ_of_step (h : step s = .next t) (n : Nat) : runSteps (n + 1) s = runSteps n t := by
  simp only [runSteps, Host.Core.run, core, h]

/-- A run that answers a next state began with a step that answers one. -/
theorem runSteps_succ_cases {n : Nat} (h : runSteps (n + 1) s = .next t) :
    ∃ u, step s = .next u ∧ runSteps n u = .next t := by
  cases hs : step s with
  | next u => exact ⟨u, rfl, (runSteps_succ_of_step hs n).symm.trans h⟩
  | fault f => simp [runSteps, Host.Core.run, core, hs] at h
  | refused r => simp [runSteps, Host.Core.run, core, hs] at h

theorem runSteps_add_of_next {m : Nat} (h : runSteps m s = .next t) (n : Nat) :
    runSteps (m + n) s = runSteps n t := by
  induction m generalizing s with
  | zero => cases h; rw [Nat.zero_add]
  | succ m ih =>
    obtain ⟨u, hstep, hrun⟩ := runSteps_succ_cases h
    rw [Nat.add_right_comm, runSteps_succ_of_step hstep, ih hrun]

/-! ### Groups of fed bytes -/

theorem State.feedBytes_append (s : State) (as bs : List Byte) :
    s.feedBytes (as ++ bs) = (s.feedBytes as).feedBytes bs := by
  simp [State.feedBytes, feedAll_append]

theorem requeue_of_ne_nil {bs : List Byte} (h : bs ≠ []) (f : Format) (rest : List Request) :
    requeue f bs rest = ⟨f, bs⟩ :: rest := if_neg h

/-- One step a byte, a group at the head of the requests is the FEEDs of its bytes in order; the group without
a byte stands for no request and takes no step. -/
theorem runSteps_feedGroup (h : s.cfg.Legal) (bs : List Byte) (rest : List Request) :
    runSteps bs.length { s with requests := requeue .feedRequest bs rest } =
      .next ({ s with requests := rest }.feedBytes bs) := by
  induction bs generalizing s with
  | nil => simp [State.feedBytes_nil]
  | cons b bs ih =>
    rw [List.length_cons, runSteps_succ_of_step (step_feedGroup h b bs rest), State.feedBytes_cons]
    exact ih (s := s.feed b) h

/-- Non-empty groups, one after the other, are the FEEDs of their concatenation. -/
theorem runSteps_feedGroups (h : s.cfg.Legal) {groups : List (List Byte)} (hne : ∀ g ∈ groups, g ≠ [])
    (rest : List Request) :
    runSteps groups.flatten.length
        { s with requests := groups.map (Request.mk .feedRequest) ++ rest } =
      .next ({ s with requests := rest }.feedBytes groups.flatten) := by
  induction groups generalizing s with
  | nil => simp [State.feedBytes_nil]
  | cons g gs ih =>
    obtain ⟨hg, hgs⟩ := List.forall_mem_cons.mp hne
    have hfirst := runSteps_feedGroup h g (gs.map (Request.mk .feedRequest) ++ rest)
    rw [requeue_of_ne_nil hg] at hfirst
    rw [List.flatten_cons, List.length_append, State.feedBytes_append]
    exact (runSteps_add_of_next hfirst _).trans (ih (s := s.feedBytes g) h hgs)

end Sys2Proof.Machine
end

section
/-! SUPPORT. The statements about ordering (20_memory.md): the step, the grouping of bytes, and the encoder
beside the decoder. -/

namespace Sys2Proof.Machine

variable {s : State} {i : Instr}

/-- Settles O45: both runs are the FEEDs of the concatenation, the second as the run of one group. -/
theorem eventsDoNotDependOnGrouping : Obligations.EventsDoNotDependOnGrouping := by
  intro s groups rest hlegal hne hgroups
  have hflat : groups.flatten ≠ [] := by
    obtain ⟨g, hg⟩ := List.exists_mem_of_ne_nil groups hgroups
    exact fun he => hne g hg (List.flatten_eq_nil_iff.mp he g hg)
  have hone := runSteps_feedGroup hlegal groups.flatten rest
  rw [requeue_of_ne_nil hflat] at hone
  exact ⟨_, runSteps_feedGroups hlegal hne rest, hone, rfl⟩

/-- An operation of the decoder neither reads nor writes the results: it does the same with one more result
put out before it (R50). -/
theorem exec_addResult (h : s.cfg.Legal) (hEncode : ∀ id payload, i ≠ .encode id payload) :
    ∃ t, exec i s = .next t ∧ t.cfg = s.cfg ∧ t.results = s.results ∧
      ∀ r, exec i (s.addResult r) = .next (t.addResult r) := by
  by_cases hReset : i = .reset
  · subst hReset
    exact ⟨_, exec_reset h, rfl, rfl, fun r => exec_reset (s := s.addResult r) h⟩
  · exact ⟨_, exec_eq_feedBytes h hEncode hReset, rfl, rfl,
      fun r => exec_eq_feedBytes (s := s.addResult r) h hEncode hReset⟩

/-- Settles O27: ENCODE adds a result that depends on the parameters alone, and an operation of the decoder
leaves both the parameters and the results. -/
theorem encodeCommutesWithTheDecoder : Obligations.EncodeCommutesWithTheDecoder := by
  intro s id payload i hlegal hEncode
  obtain ⟨t', hexec, hcfg, hresults, hafter⟩ := exec_addResult hlegal hEncode
  have hlegal' : t'.cfg.Legal := hcfg ▸ hlegal
  refine ⟨_, t', _, exec_encode hlegal id payload, hafter _, hexec, ?_, rfl, rfl, hresults, ?_⟩
  · rw [exec_encode hlegal', hcfg]
  · rw [State.addResult_results, State.addResult_results, hresults]

/-- Settles O37: the request decoded is the one the step fetches, and `requeue` puts the bytes left first. -/
theorem stepPerformsTheDecodedOperation : Obligations.StepPerformsTheDecodedOperation :=
  fun _ _ _ _ _ hreq hdec => step_of_decode hreq hdec

end Sys2Proof.Machine
end

section
/-! SUPPORT. The decode map and the byte forms of the requests: which row a byte selects, and what the tokens
read back (30_encoding.md R60 to R66). -/

namespace Sys2Proof

open Machine (IsLength idLe32 rawId rawId_idLe32 idLe32_rawId)

variable {c : Config} {x : Context} {b : Byte} {k : ByteClass} {i : Instr} {rest more : List Byte}

/-! ### The rows of the decode map -/

/-- No LENGTH byte is a marker (K-a of R8). -/
theorem ne_markers_of_isLength (h : c.Legal) (hb : IsLength b) : b ≠ c.frameStart ∧ b ≠ c.escape := by
  obtain ⟨⟨hStart, hEscape⟩, -⟩ := h
  exact ⟨fun e => hStart (e ▸ hb), fun e => hEscape (e ▸ hb)⟩

/-- The columns `st`, `pending` and `b` of a row of the decode map (R65). -/
def Selects (c : Config) (x : Context) (b : Byte) : ByteClass → Prop
  | .sof => b = c.frameStart
  | .ignore => x.st = .waiting ∧ x.pending = false ∧ b ≠ c.frameStart
  | .len => x.st = .expectLength ∧ x.pending = false ∧ 4 ≤ b.toNat ∧ b.toNat ≤ 12
  | .badlen => x.st = .expectLength ∧ x.pending = false ∧ b ≠ c.frameStart ∧ (b.toNat < 4 ∨ 12 < b.toNat)
  | .unescStart => x.st = .inPayload ∧ x.pending = true ∧ b = c.escapedStart
  | .unescEsc => x.st = .inPayload ∧ x.pending = true ∧ b = c.escapedEscape
  | .badesc => x.st = .inPayload ∧ x.pending = true ∧ b ≠ c.frameStart ∧ b ≠ c.escapedStart ∧
      b ≠ c.escapedEscape
  | .esc => x.st = .inPayload ∧ x.pending = false ∧ b = c.escape
  | .data => x.st = .inPayload ∧ x.pending = false ∧ b ≠ c.frameStart ∧ b ≠ c.escape

/-- The class of a byte meets the columns of its row, where the flag is clear outside `InPayload` (R25). -/
theorem selects_classify (hp : x.st ≠ .inPayload → x.pending = false) (b : Byte) :
    Selects c x b (classify c x b) := by
  rcases classify_cases c x b with ⟨h0, hk⟩ | ⟨h0, hst, hk⟩ | ⟨-, hst, hl, hk⟩ | ⟨h0, hst, hl, hk⟩ |
    ⟨-, hst, hf, hb, hk⟩ | ⟨-, hst, hf, -, hb, hk⟩ | ⟨h0, hst, hf, h1, h2, hk⟩ | ⟨-, hst, hf, hb, hk⟩ |
    ⟨h0, hst, hf, hb, hk⟩ <;> rw [hk]
  · exact h0
  · exact ⟨hst, hp (by simp [hst]), h0⟩
  · exact ⟨hst, hp (by simp [hst]), hl⟩
  · exact ⟨hst, hp (by simp [hst]), h0, by omega⟩
  · exact ⟨hst, hf, hb⟩
  · exact ⟨hst, hf, hb⟩
  · exact ⟨hst, hf, h0, h1, h2⟩
  · exact ⟨hst, hf, hb⟩
  · exact ⟨hst, hf, h0, hb⟩

/-- A byte that meets the columns of a row is of its class: under legal parameters the rows exclude each
other. -/
theorem classify_of_selects (h : c.Legal) (hsel : Selects c x b k) : classify c x b = k := by
  have hLength (hl : IsLength b) : b ≠ c.frameStart := (ne_markers_of_isLength h hl).1
  obtain ⟨-, -, hMarkers, hSubstitutes, hSubStart, hSubEscape⟩ := h
  obtain ⟨st, pending⟩ := x
  cases k with
  | sof => exact if_pos hsel
  | ignore =>
    obtain ⟨rfl, -, h0⟩ := hsel
    exact if_neg h0
  | len =>
    obtain ⟨rfl, -, hl⟩ := hsel
    exact (if_neg (hLength hl)).trans (if_pos hl)
  | badlen =>
    obtain ⟨rfl, -, h0, hl⟩ := hsel
    exact (if_neg h0).trans (if_neg (by omega))
  | unescStart =>
    obtain ⟨rfl, rfl, rfl⟩ := hsel
    simp [classify, hSubStart]
  | unescEsc =>
    obtain ⟨rfl, rfl, rfl⟩ := hsel
    simp [classify, hSubEscape, hSubstitutes.symm]
  | badesc =>
    obtain ⟨rfl, rfl, h0, h1, h2⟩ := hsel
    simp [classify, h0, h1, h2]
  | esc =>
    obtain ⟨rfl, rfl, rfl⟩ := hsel
    simp [classify, hMarkers.symm]
  | data =>
    obtain ⟨rfl, rfl, h0, h1⟩ := hsel
    simp [classify, h0, h1]

/-- Every byte has exactly the class whose columns it meets (R65). -/
theorem classify_eq_iff (h : c.Legal) (hp : x.st ≠ .inPayload → x.pending = false) (b : Byte)
    (k : ByteClass) : classify c x b = k ↔ Selects c x b k :=
  ⟨fun hk => hk ▸ selects_classify hp b, classify_of_selects h⟩

/-! ### Fed bytes as rows -/

/-- A fed byte is read as the row of its class. -/
theorem decode_feedByte (hk : classify c x b = k) (rest : List Byte) :
    decode c x ⟨.feedByte, b :: rest⟩ = .instr (k.row b) rest := by
  rw [← hk]; rfl

/-- The row that R65 selects is well formed, and its request carries the byte. -/
theorem wellFormed_row (c : Config) (x : Context) (b : Byte) :
    WellFormed c x ((classify c x b).row b) = true ∧ (encode c ((classify c x b).row b)).bytes = [b] := by
  rcases classify_cases c x b with ⟨rfl, hk⟩ | ⟨-, -, hk⟩ | ⟨-, -, -, hk⟩ | ⟨-, -, -, hk⟩ |
    ⟨-, -, -, rfl, hk⟩ | ⟨-, -, -, -, rfl, hk⟩ | ⟨-, -, -, -, -, hk⟩ | ⟨-, -, -, rfl, hk⟩ |
    ⟨-, -, -, -, hk⟩ <;> rw [hk]
  · exact ⟨rfl, rfl⟩
  all_goals exact ⟨decide_eq_true hk, rfl⟩

/-! ### Fed bytes as tokens -/

/-- Everything a token can be, with the bytes it takes: a byte that starts no token is fed as it is. -/
theorem decodeToken_cases (c : Config) (x : Context) (b : Byte) (rest : List Byte) :
    (b = c.frameStart ∧ decodeToken c x b rest = (.tokSof, rest)) ∨
    (x.st = .expectLength ∧ IsLength b ∧ decodeToken c x b rest = (.tokLen (b.setWidth 4), rest)) ∨
    (x.st ≠ .expectLength ∧ x.pending = false ∧ b = c.escape ∧ ∃ ys, rest = c.escapedStart :: ys ∧
      decodeToken c x b rest = (.tokEscStart, ys)) ∨
    (x.st ≠ .expectLength ∧ x.pending = false ∧ b = c.escape ∧ ∃ ys, rest = c.escapedEscape :: ys ∧
      decodeToken c x b rest = (.tokEscEsc, ys)) ∨
    (x.st ≠ .expectLength ∧ x.pending = false ∧ b ≠ c.frameStart ∧ b ≠ c.escape ∧
      decodeToken c x b rest = (.tokLit b, rest)) ∨
    decodeToken c x b rest = (.feed b, rest) := by
  by_cases h0 : b = c.frameStart
  · exact .inl ⟨h0, if_pos h0⟩
  unfold decodeToken
  rw [if_neg h0]
  by_cases hst : x.st = .expectLength
  · rw [if_pos hst]
    by_cases hl : IsLength b
    · exact .inr (.inl ⟨hst, hl, if_pos hl⟩)
    · exact .inr (.inr (.inr (.inr (.inr (if_neg hl)))))
  rw [if_neg hst]
  cases hp : x.pending with
  | true => exact .inr (.inr (.inr (.inr (.inr rfl))))
  | false =>
    rw [if_neg Bool.false_ne_true]
    by_cases h1 : b = c.escape
    · rw [if_pos h1]
      cases rest with
      | nil => exact .inr (.inr (.inr (.inr (.inr rfl))))
      | cons y ys =>
        by_cases h2 : y = c.escapedStart
        · exact .inr (.inr (.inl ⟨hst, rfl, h1, ys, by rw [h2], if_pos h2⟩))
        by_cases h3 : y = c.escapedEscape
        · exact .inr (.inr (.inr (.inl ⟨hst, rfl, h1, ys, by rw [h3], (if_neg h2).trans (if_pos h3)⟩)))
        · exact .inr (.inr (.inr (.inr (.inr ((if_neg h2).trans (if_neg h3))))))
    · exact .inr (.inr (.inr (.inr (.inl ⟨hst, rfl, h0, h1, if_neg h1⟩))))

/-- A LENGTH byte is its low four bits, `0000LLLL` (R76). -/
theorem setWidth_setWidth_of_isLength (h : IsLength b) : (b.setWidth 4).setWidth 8 = b := by
  obtain ⟨-, hhi⟩ := h
  apply BitVec.eq_of_toNat_eq
  simp only [BitVec.toNat_setWidth]
  omega

/-- What is read as a token is well formed there, and no byte is lost. -/
theorem decodeToken_reads (c : Config) (x : Context) (b : Byte) (rest : List Byte) :
    WellFormed c x (decodeToken c x b rest).1 = true ∧
      (encode c (decodeToken c x b rest).1).bytes ++ (decodeToken c x b rest).2 = b :: rest := by
  rcases decodeToken_cases c x b rest with ⟨rfl, ht⟩ | ⟨hst, hl, ht⟩ | ⟨hst, hp, rfl, ys, rfl, ht⟩ |
    ⟨hst, hp, rfl, ys, rfl, ht⟩ | ⟨hst, hp, h0, h1, ht⟩ | ht <;> rw [ht]
  · exact ⟨rfl, rfl⟩
  · have hb := setWidth_setWidth_of_isLength hl
    exact ⟨decide_eq_true ⟨hst, hb.symm ▸ hl⟩, by simp only [encode, hb, List.singleton_append]⟩
  · exact ⟨decide_eq_true ⟨hst, hp⟩, rfl⟩
  · exact ⟨decide_eq_true ⟨hst, hp⟩, rfl⟩
  · exact ⟨decide_eq_true ⟨hst, hp, h0, h1⟩, rfl⟩
  · exact ⟨rfl, rfl⟩

/-- A LENGTH byte is read as TOK.LEN at offset 1 (R61). -/
theorem decodeToken_isLength (h : c.Legal) (hst : x.st = .expectLength) (hb : IsLength b)
    (rest : List Byte) : decodeToken c x b rest = (.tokLen (b.setWidth 4), rest) := by
  simp only [decodeToken, if_neg (ne_markers_of_isLength h hb).1, if_pos hst, if_pos hb]

/-- Outside `ExpectLength`, with the flag clear, the escape sequences are read as their tokens, and any byte
but a marker as TOK.LIT (R62). -/
theorem decodeToken_region (h : c.Legal) (hst : x.st ≠ .expectLength) (hp : x.pending = false)
    (rest : List Byte) :
    decodeToken c x c.escape (c.escapedStart :: rest) = (.tokEscStart, rest) ∧
    decodeToken c x c.escape (c.escapedEscape :: rest) = (.tokEscEsc, rest) ∧
    ∀ d, d ≠ c.frameStart → d ≠ c.escape → decodeToken c x d rest = (.tokLit d, rest) := by
  obtain ⟨-, -, hMarkers, hSubstitutes, -⟩ := h
  refine ⟨?_, ?_, fun d h0 h1 => ?_⟩
  · simp [decodeToken, hMarkers.symm, hst, hp]
  · simp [decodeToken, hMarkers.symm, hst, hp, hSubstitutes.symm]
  · simp [decodeToken, h0, h1, hst, hp]

theorem decode_wireToken (h : decodeToken c x b rest = (i, more)) :
    decode c x ⟨.wireToken, b :: rest⟩ = .instr i more := by
  simp only [decode, h]

/-! ### Reading and writing every operation -/

/-- Settles O35, operation by operation: a row by its class, a token by its place, an ENCODE by the byte order
of its identifier. -/
theorem decodeOfEncode : Obligations.DecodeOfEncode := by
  intro c x i hlegal hwf
  cases i with
  | feedSof => exact decode_feedByte (classify_of_selects (k := .sof) hlegal rfl) []
  | feedIgnore | feedLen | feedBadlen | feedUnescStart | feedUnescEsc | feedBadesc | feedEsc | feedData =>
    exact decode_feedByte (of_decide_eq_true hwf) []
  | encode id payload => exact congrArg (fun id => Decoded.instr (.encode id payload) []) (rawId_idLe32 id)
  | feed | reset => rfl
  | tokSof => exact decode_wireToken (if_pos rfl)
  | tokLen l =>
    obtain ⟨hst, hl⟩ := of_decide_eq_true hwf
    have hread := decodeToken_isLength hlegal hst hl []
    rw [BitVec.setWidth_setWidth_of_le l (by decide), BitVec.setWidth_eq] at hread
    exact decode_wireToken hread
  | tokEscStart =>
    obtain ⟨hst, hp⟩ := of_decide_eq_true hwf
    exact decode_wireToken (decodeToken_region hlegal hst hp []).1
  | tokEscEsc =>
    obtain ⟨hst, hp⟩ := of_decide_eq_true hwf
    exact decode_wireToken (decodeToken_region hlegal hst hp []).2.1
  | tokLit d =>
    obtain ⟨hst, hp, h0, h1⟩ := of_decide_eq_true hwf
    exact decode_wireToken ((decodeToken_region hlegal hst hp []).2.2 d h0 h1)

/-- Settles O36, format by format: a fed byte is written back by its row or its token, an identifier by its
four bytes. -/
theorem decodingLosesNoByte : Obligations.DecodingLosesNoByte := by
  rintro c x ⟨format, bytes⟩ i more - hdec
  cases format with
  | feedByte =>
    cases bytes with
    | nil => cases hdec
    | cons b rest =>
      cases hdec
      obtain ⟨hwf, hbytes⟩ := wellFormed_row c x b
      exact ⟨hwf, by rw [hbytes, List.singleton_append]⟩
  | encodeRequest =>
    match bytes, hdec with
    | b0 :: b1 :: b2 :: b3 :: payload, hdec =>
      cases hdec
      exact ⟨rfl, by simp only [encode, idLe32_rawId, List.append_nil, List.cons_append, List.nil_append]⟩
  | feedRequest =>
    cases bytes with
    | nil => cases hdec
    | cons b rest => cases hdec; exact ⟨rfl, rfl⟩
  | reset =>
    cases bytes with
    | nil => cases hdec; exact ⟨rfl, rfl⟩
    | cons b rest => cases hdec
  | wireToken =>
    cases bytes with
    | nil => cases hdec
    | cons b rest => cases hdec; exact decodeToken_reads c x b rest

/-- Settles O34: each word is read by evaluating the decoder. -/
theorem sampleWordsDecode : Obligations.SampleWordsDecode := by
  unfold Obligations.SampleWordsDecode
  decide

end Sys2Proof
end

section
/-! SUPPORT. The output of a fed byte, and the operations that feed bytes (30_encoding.md R65, R75). -/

namespace Sys2Proof.Machine

variable {c : Config} {d : DecoderState} {s : State}

/-- PUSH puts out nothing or a message. -/
theorem push_event (c : Config) (d : DecoderState) (x : Byte) :
    (push c d x).2 = .none ∨ ∃ id payload, (push c d x).2 = .message id payload := by
  obtain ⟨-, hp⟩ | ⟨-, hp⟩ := push_cases c d x <;> rw [hp]
  · simp only [message, applyPolicy]
    split
    · exact .inr ⟨_, _, rfl⟩
    · cases c.idPolicy with
      | pass | mask => exact .inr ⟨_, _, rfl⟩
      | drop => exact .inl rfl
  · exact .inl rfl

/-- Each row puts out an event of its column `event` (R65). -/
theorem rowOf_mayOutput (c : Config) (d : DecoderState) (b : Byte) (k : ByteClass) :
    MayOutput k (rowOf c d b k).2 := by
  cases k with
  | sof | ignore | len | badlen | badesc | esc => rfl
  | unescStart | unescEsc | data => exact push_event ..

theorem exec_rowOfClass (h : s.cfg.Legal) (b : Byte) :
    exec ((classify s.cfg s.dec.context b).row b) s = .next (s.feed b) := by
  rw [exec_row h, (wellFormed_row s.cfg s.dec.context b).2, s.feedBytes_singleton]

/-- Settles O4: a class is the one whose columns the byte meets, and FEED is the transition of its row. -/
theorem decodeMapSelectsOneRow : Obligations.DecodeMapSelectsOneRow := by
  intro s b hlegal hshape
  have hclass := classify_eq_iff hlegal (x := s.dec.context) hshape.pending_eq_false b
  refine ⟨hclass .sof, hclass .ignore, hclass .len, hclass .badlen, hclass .unescStart, hclass .unescEsc,
    hclass .badesc, hclass .esc, hclass .data, ?_, s.feed b, _, exec_feed hlegal b, s.feed_events b, ?_⟩
  · rw [exec_feed hlegal, exec_rowOfClass hlegal]
  · rw [feed_eq_rowOf]
    exact rowOf_mayOutput ..

/-- Settles O5: a row feeds the bytes its request carries, which are the one byte given. -/
theorem rowIsTheFeedOfItsByte : Obligations.RowIsTheFeedOfItsByte := by
  intro s k b x hlegal hbytes
  exact ⟨by rw [exec_row hlegal, hbytes, s.feedBytes_singleton], exec_feed hlegal x⟩

/-- Settles O28: every token is the FEEDs of the bytes its request carries, of which there are one or two. -/
theorem tokensFeedTheirBytes : Obligations.TokensFeedTheirBytes := by
  intro s hlegal
  have hfeed : ∀ b : Byte, exec (.feed b) s = .next (s.feed b) := exec_feed hlegal
  have hpair : ∀ a b : Byte, exec (.feed b) (s.feed a) = .next (s.feedBytes [a, b]) := fun a b => by
    rw [exec_feed (s := s.feed a) hlegal, s.feedBytes_cons, State.feedBytes_singleton]
  have htoken {i : Instr} (hEncode : ∀ id payload, i ≠ .encode id payload) (hReset : i ≠ .reset) :
      exec i s = .next (s.feedBytes (encode s.cfg i).bytes) := exec_eq_feedBytes hlegal hEncode hReset
  exact ⟨⟨_, hfeed _, htoken nofun nofun⟩, fun _ => ⟨_, hfeed _, htoken nofun nofun⟩,
    ⟨_, _, hfeed _, hpair _ _, htoken nofun nofun⟩, ⟨_, _, hfeed _, hpair _ _, htoken nofun nofun⟩,
    fun _ => ⟨_, hfeed _, htoken nofun nofun⟩⟩

end Sys2Proof.Machine
end

section
/-! SUPPORT. The encoded frame: its length, its tokens, and what the decoder makes of its bytes (30_encoding.md
R60 to R67). -/

namespace Sys2Proof.Machine

variable {c : Config} {d : DecoderState} {s : State} {id : Ident} {payload f : List Byte}

/-- Where ENCODE answers bytes, its operands are valid and the bytes are their frame. -/
theorem encodeFrame_eq_ok (h : encodeFrame c id payload = .ok f) :
    Encodable id payload ∧ f = frame c id payload := by
  by_cases he : Encodable id payload
  · rw [encodeFrame_of_encodable he] at h
    cases h
    exact ⟨he, rfl⟩
  · rw [encodeFrame_of_not_encodable he] at h
    cases h

/-! ### Its length -/

/-- The bytes of a sequence that are markers: those that take an escape (R64). -/
def markerCount (c : Config) (bs : List Byte) : Nat := bs.countP fun x => x = c.frameStart ∨ x = c.escape

theorem markerCount_append (c : Config) (as bs : List Byte) :
    markerCount c (as ++ bs) = markerCount c as + markerCount c bs := List.countP_append

theorem markerCount_le_length (c : Config) (bs : List Byte) : markerCount c bs ≤ bs.length :=
  List.countP_le_length

theorem esc_length_eq (c : Config) (x : Byte) : (esc c x).length = 1 + markerCount c [x] := by
  obtain ⟨hx, he⟩ | ⟨-, hx, he⟩ | ⟨h0, h1, he⟩ := esc_cases c x <;> rw [he]
  · simp [markerCount, hx]
  · simp [markerCount, hx]
  · simp [markerCount, h0, h1]

/-- Escaping adds one byte for each marker. -/
theorem escaped_length_eq (c : Config) (bs : List Byte) :
    (escaped c bs).length = bs.length + markerCount c bs := by
  induction bs with
  | nil => rfl
  | cons x xs ih =>
    have hcount : markerCount c (x :: xs) = markerCount c [x] + markerCount c xs :=
      markerCount_append c [x] xs
    rw [escaped_cons, List.length_append, esc_length_eq, ih, hcount, List.length_cons]
    omega

/-- R64: the frame has `2 + (4 + n) + m` bytes. -/
theorem frame_length_eq (c : Config) (id : Ident) (payload : List Byte) :
    (frame c id payload).length = 2 + (4 + payload.length) + markerCount c (region id payload) := by
  simp only [frame, List.length_cons, escaped_length_eq, region_length]
  omega

/-- Where both markers are above `0x1F`, the top byte of a valid identifier is none, so the region holds at
most 11 (R64). -/
theorem markerCount_region_le (hid : id.toNat < 2 ^ 29) (hlen : payload.length ≤ 8)
    (hStart : 0x1F < c.frameStart.toNat) (hEscape : 0x1F < c.escape.toNat) :
    markerCount c (region id payload) ≤ 11 := by
  have htop : (id.extractLsb' 24 8).toNat ≤ 0x1F := by
    simp only [BitVec.extractLsb'_toNat, Nat.shiftRight_eq_div_pow]
    omega
  have hnone : markerCount c [id.extractLsb' 24 8] = 0 := by
    have h0 : id.extractLsb' 24 8 ≠ c.frameStart := fun e => by rw [e] at htop; omega
    have h1 : id.extractLsb' 24 8 ≠ c.escape := fun e => by rw [e] at htop; omega
    simp [markerCount, h0, h1]
  have hsplit : region id payload =
      [id.extractLsb' 0 8, id.extractLsb' 8 8, id.extractLsb' 16 8] ++ [id.extractLsb' 24 8] ++ payload := rfl
  have hlow := markerCount_le_length c [id.extractLsb' 0 8, id.extractLsb' 8 8, id.extractLsb' 16 8]
  have hpayload := markerCount_le_length c payload
  rw [hsplit, markerCount_append, markerCount_append, hnone]
  simp only [List.length_cons, List.length_nil] at hlow
  omega

/-- Settles O25: escaping adds a byte for each marker of the region; the ends are reached by a frame of zeros
and by one of markers only. -/
theorem encodedFrameLength : Obligations.EncodedFrameLength := by
  refine ⟨fun c id payload hlegal hlen hid => ?_, ?_, ?_, ?_⟩
  · have hlength := frame_length_eq c id payload
    obtain ⟨hlo, hhi⟩ := frame_length_range c id hlen
    refine ⟨_, _, encodeFrame_of_encodable ⟨hlen, (topBits_eq_zero id).mpr hid⟩ c, rfl, hlength, hlo, hhi,
      fun hStart hEscape => ?_⟩
    have hmarkers := markerCount_region_le hid hlen hStart hEscape
    exact ⟨hmarkers, by omega⟩
  · exact ⟨.standard, 0, [], _, by decide, encodeFrame_of_encodable (by decide) _, by decide⟩
  · exact ⟨⟨0x1F, 0xFF, 1, 2, .pass⟩, 0x1FFFFFFF, List.replicate 8 0xFF, _, by decide,
      encodeFrame_of_encodable (by decide) _, by decide⟩
  · exact ⟨0x1FFFFFFF, List.replicate 8 0xFF, _, encodeFrame_of_encodable (by decide) _, by decide⟩

/-- Settles O26: a frame begins with `FRAME_START`, and its tail holds none. -/
theorem frameStartOccursOnlyAtOffsetZero : Obligations.FrameStartOccursOnlyAtOffsetZero := by
  intro c id payload f k hlegal hf
  obtain ⟨he, rfl⟩ := encodeFrame_eq_ok hf
  cases k with
  | zero => exact iff_of_true rfl rfl
  | succ k =>
    refine iff_of_false (fun hk => ?_) (Nat.succ_ne_zero k)
    exact frameStart_notMem_frame_tail hlegal id he.1 (List.mem_of_getElem? (by rwa [List.getElem?_tail]))

/-! ### Its tokens -/

/-- The token of a byte of the region carries its escape sequence (R62). -/
theorem encode_tokenOf (c : Config) (x : Byte) : (encode c (tokenOf c x)).bytes = esc c x := by
  unfold tokenOf esc
  split_ifs <;> rfl

/-- The token of a byte of the region is well formed between escape sequences. -/
theorem wellFormed_tokenOf (c : Config) (x : Byte) :
    WellFormed c ⟨.inPayload, false⟩ (tokenOf c x) = true := by
  unfold tokenOf
  split_ifs with h0 h1
  · rfl
  · rfl
  · exact decide_eq_true ⟨nofun, rfl, h0, h1⟩

/-- `0000LLLL` is the LENGTH byte (R76). -/
theorem setWidth_length {n : Nat} (h : n ≤ 8) : (BitVec.ofNat 4 (n + 4)).setWidth 8 = lengthByte n := by
  apply BitVec.eq_of_toNat_eq
  rw [lengthByte_toNat h, BitVec.toNat_setWidth, BitVec.toNat_ofNat]
  omega

theorem isLength_lengthByte {n : Nat} (h : n ≤ 8) : IsLength (lengthByte n) := by
  have := lengthByte_toNat h
  omega

/-- Settles O30: each byte of the region is written by its token, and the LENGTH byte is in range. -/
theorem frameIsItsTokens : Obligations.FrameIsItsTokens := by
  intro c id payload hlegal he
  have hlength := setWidth_length he.1
  have hLen : (encode c (.tokLen (BitVec.ofNat 4 (payload.length + 4)))).bytes = [lengthByte payload.length] :=
    congrArg (fun b => [b]) hlength
  refine ⟨?_, decide_eq_true ⟨rfl, hlength ▸ isLength_lengthByte he.1⟩, fun x _ => wellFormed_tokenOf c x⟩
  rw [encodeFrame_of_encodable he, frameTokens, List.flatMap_cons, List.flatMap_cons, List.flatMap_map, hLen]
  simp only [encode_tokenOf]
  rfl

/-! ### Its bytes, fed -/

/-- The events of FEEDs of `bs` of which only the last may speak, by `e`. -/
def silentUntilLast (bs : List Byte) (e : Event) : List Event := List.replicate (bs.length - 1) .none ++ [e]

theorem silentUntilLast_cons (b : Byte) {bs : List Byte} (h : bs ≠ []) (e : Event) :
    .none :: silentUntilLast bs e = silentUntilLast (b :: bs) e := by
  obtain ⟨x, xs, rfl⟩ := List.exists_cons_of_ne_nil h
  rfl

theorem silentUntilLast_none {bs : List Byte} (h : bs ≠ []) :
    silentUntilLast bs .none = List.replicate bs.length .none := by
  rw [silentUntilLast, ← List.replicate_succ', Nat.sub_add_cancel (List.length_pos_iff.mpr h)]

theorem silentUntilLast_append {as bs : List Byte} (ha : as ≠ []) (hb : bs ≠ []) (e : Event) :
    silentUntilLast as .none ++ silentUntilLast bs e = silentUntilLast (as ++ bs) e := by
  rw [silentUntilLast_none ha, silentUntilLast, silentUntilLast, ← List.append_assoc,
    List.replicate_append_replicate, List.length_append, Nat.add_sub_assoc (List.length_pos_iff.mpr hb)]

theorem esc_ne_nil (c : Config) (x : Byte) : esc c x ≠ [] :=
  List.ne_nil_of_length_pos (esc_length c x).1

theorem escaped_ne_nil (c : Config) {bs : List Byte} (h : bs ≠ []) : escaped c bs ≠ [] :=
  List.ne_nil_of_length_pos ((List.length_pos_iff.mpr h).trans_le (escaped_length c bs).1)

/-- The escape sequence of a byte, fed between escape sequences, pushes the byte (R62, R125 to R129). -/
theorem feedAll_esc (h : c.Legal) (hst : d.st = .inPayload) (hp : d.pending = false) (x : Byte) :
    feedAll c d (esc c x) = ((push c d x).1, silentUntilLast (esc c x) (push c d x).2) := by
  obtain ⟨-, -, hMarkers, hSubstitutes, hSubStart, hSubEscape⟩ := h
  obtain ⟨st, buf, target, pending⟩ := d
  cases hst
  cases hp
  obtain ⟨rfl, he⟩ | ⟨-, rfl, he⟩ | ⟨h0, h1, he⟩ := esc_cases c x <;> rw [he]
  · simp [feedAll, feed, hMarkers.symm, hSubStart, DecoderState.setPending, push, silentUntilLast]
  · simp [feedAll, feed, hMarkers.symm, hSubEscape, hSubstitutes.symm, DecoderState.setPending, push,
      silentUntilLast]
  · simp [feedAll, feed, h0, h1, silentUntilLast]

/-- The token of a byte, executed between escape sequences, pushes the byte (R62; log 7). -/
theorem exec_tokenOf (h : s.cfg.Legal) (hst : s.dec.st = .inPayload) (hp : s.dec.pending = false) (x : Byte) :
    exec (tokenOf s.cfg x) s = .next { s with
      dec := (push s.cfg s.dec x).1,
      events := s.events ++ silentUntilLast (esc s.cfg x) (push s.cfg s.dec x).2 } := by
  have hEncode : ∀ id payload, tokenOf s.cfg x ≠ .encode id payload := by
    unfold tokenOf
    split_ifs <;> exact nofun
  have hReset : tokenOf s.cfg x ≠ .reset := by
    unfold tokenOf
    split_ifs <;> exact nofun
  rw [exec_eq_feedBytes h hEncode hReset, encode_tokenOf, State.feedBytes, feedAll_esc h hst hp]

/-- Settles O29: the escape tokens are the tokens of the two markers. -/
theorem escapeTokensPushOneByte : Obligations.EscapeTokensPushOneByte := by
  intro s hlegal hst hp
  have hStart := exec_tokenOf hlegal hst hp s.cfg.frameStart
  have hEscape := exec_tokenOf hlegal hst hp s.cfg.escape
  obtain ⟨-, -, hMarkers, -⟩ := hlegal
  rw [tokenOf, if_pos rfl, esc, if_pos rfl] at hStart
  rw [tokenOf, if_neg hMarkers.symm, if_pos rfl, esc, if_neg hMarkers.symm, if_pos rfl] at hEscape
  exact ⟨hStart, hEscape⟩

/-- The escaped rest of a region completes the frame on its last byte. -/
theorem feedAll_escaped (h : c.Legal) {buf bs : List Byte} {n : Nat} (hne : bs ≠ [])
    (hn : buf.length + bs.length = n) :
    feedAll c ⟨.inPayload, buf, some n, false⟩ (escaped c bs) =
      (.waiting0, silentUntilLast (escaped c bs) (message c (buf ++ bs))) := by
  induction bs generalizing buf with
  | nil => exact absurd rfl hne
  | cons x xs ih =>
    rw [escaped_cons, feedAll_append, feedAll_esc h rfl rfl]
    rw [List.length_cons] at hn
    obtain ⟨ht, hpush⟩ | ⟨ht, hpush⟩ := push_cases c ⟨.inPayload, buf, some n, false⟩ x <;> rw [hpush]
    · have hlen : n = buf.length + 1 := Option.some.inj ht
      have hlast : xs = [] := List.eq_nil_of_length_eq_zero (by omega)
      simp [hlast]
    · have hxs : xs ≠ [] := by
        rintro rfl
        exact ht (congrArg some hn.symm)
      have hlen : (buf ++ [x]).length + xs.length = n := by
        rw [List.length_append, List.length_singleton]; omega
      rw [ih hxs hlen, silentUntilLast_append (esc_ne_nil c x) (escaped_ne_nil c hxs), List.append_assoc,
        List.singleton_append]

/-- The buffer of a whole region of a valid identifier is its message, under every policy (R131, R132). -/
theorem message_region (c : Config) (he : Encodable id payload) :
    message c (region id payload) = .message id payload := by
  have hraw : message c (region id payload) = applyPolicy c.idPolicy
      (rawId (id.extractLsb' 0 8) (id.extractLsb' 8 8) (id.extractLsb' 16 8) (id.extractLsb' 24 8))
      payload := rfl
  rw [hraw, rawId_idLe32]
  exact if_pos he.2

/-- A LENGTH byte in `ExpectLength` opens the region (R123). -/
theorem feed_length (h : c.Legal) {b : Byte} (hb : IsLength b) :
    feed c ⟨.expectLength, [], none, false⟩ b = (⟨.inPayload, [], some b.toNat, false⟩, .none) :=
  (if_neg (ne_markers_of_isLength h hb).1).trans (if_pos hb)

/-- An encoded frame, fed from any decoder state, gives its message on its last byte and nothing before it
(R136). -/
theorem feedAll_frame (h : c.Legal) (he : Encodable id payload) (d : DecoderState) :
    feedAll c d (frame c id payload) =
      (.waiting0, silentUntilLast (frame c id payload) (.message id payload)) := by
  have hregion : region id payload ≠ [] := List.ne_nil_of_length_pos (by rw [region_length]; omega)
  have hescaped := feedAll_escaped h (buf := []) hregion (n := payload.length + 4)
    (by rw [region_length, List.length_nil]; omega)
  rw [List.nil_append, message_region c he] at hescaped
  rw [frame, feedAll_cons, feed_frameStart, feedAll_cons, feed_length h (isLength_lengthByte he.1),
    lengthByte_toNat he.1, hescaped, silentUntilLast_cons _ (escaped_ne_nil c hregion),
    silentUntilLast_cons _ (List.cons_ne_nil _ _)]

/-- The events of the first `k` bytes are the first `k` events. -/
theorem feedAll_take_events (c : Config) (d : DecoderState) (bs : List Byte) (k : Nat) :
    (feedAll c d (bs.take k)).2 = (feedAll c d bs).2.take k := by
  induction bs generalizing d k with
  | nil => simp
  | cons b bs ih =>
    cases k with
    | zero => rfl
    | succ k => simp only [List.take_succ_cons, feedAll_cons, ih]

/-- The first bytes of an encoded frame, without its last, give no event, whatever state it starts in. -/
theorem feedAll_frame_take_events (h : c.Legal) (he : Encodable id payload) (d : DecoderState) {k : Nat}
    (hk : k < (frame c id payload).length) :
    (feedAll c d ((frame c id payload).take k)).2 = List.replicate k .none := by
  rw [feedAll_take_events, feedAll_frame h he, silentUntilLast, List.take_append_of_le_length
    (by rw [List.length_replicate]; omega), List.take_replicate, Nat.min_eq_left (by omega)]

/-- Settles O49: the first frame is cut before its last byte, and the second is received from any state. -/
theorem truncatedFrameIsSilent : Obligations.TruncatedFrameIsSilent := by
  intro c d k f f' id id' payload payload' hlegal hf hf' hk
  obtain ⟨he, rfl⟩ := encodeFrame_eq_ok hf
  obtain ⟨he', rfl⟩ := encodeFrame_eq_ok hf'
  have hpos := (frame_length_range c id' he'.1).1
  rw [feedAll_append, feedAll_frame hlegal he', feedAll_frame_take_events hlegal he d hk, silentUntilLast,
    ← List.append_assoc, List.replicate_append_replicate, Nat.add_sub_assoc (by omega)]

end Sys2Proof.Machine
end

section
/-! SUPPORT. The ports: what their lanes carry, and their step as operations of the machine (30_encoding.md R69,
R73, R74). -/

namespace Sys2Proof.Machine

variable {c : Config} {r : PortRegs} {p : PortIn} {d : DecoderState} {s : State}

/-! ### Codes and lanes -/

/-- Settles O50: one code for each event and each result. -/
theorem portCodes : Obligations.PortCodes := by
  refine ⟨rfl, fun _ _ => rfl, rfl, rfl, fun e => ?_, fun _ => rfl, rfl⟩
  cases e <;> rfl

/-- Byte `i` of the packed number is lane `i`, 0 from the end on. -/
theorem packLanes_byte (bs : List Byte) (i : Nat) :
    packLanes bs / 256 ^ i % 256 = (bs.getD i 0).toNat := by
  induction bs generalizing i with
  | nil => simp [packLanes]
  | cons b bs ih =>
    have hb := b.isLt
    cases i with
    | zero =>
      simp only [packLanes, List.getD_cons_zero, Nat.pow_zero, Nat.div_one]
      omega
    | succ i =>
      have htail : packLanes (b :: bs) / 256 = packLanes bs := by
        simp only [packLanes]
        omega
      rw [Nat.pow_succ', ← Nat.div_div_eq_div_mul, htail, ih, List.getD_cons_succ]

/-- On a port of `n` lanes, lane `i` is byte `i` of what is packed, 0 from its length on (R74). -/
theorem extractLsb'_packLanes {bs : List Byte} {n : Nat} (h : bs.length ≤ n) (i : Nat) :
    (BitVec.ofNat (8 * n) (packLanes bs)).extractLsb' (8 * i) 8 = bs.getD i 0 := by
  have hbound : packLanes bs < 2 ^ (8 * n) := by
    rw [Nat.pow_mul]
    exact (packLanes_lt bs).trans_le (Nat.pow_le_pow_right (by decide) h)
  apply BitVec.eq_of_toNat_eq
  rw [BitVec.extractLsb'_toNat, BitVec.toNat_ofNat, Nat.mod_eq_of_lt hbound, Nat.shiftRight_eq_div_pow,
    Nat.pow_mul]
  exact packLanes_byte bs i

/-- Settles O51: the ports pack a message of at most 8 lanes, a frame of at most 26. -/
theorem portOutputsCarryTheResult : Obligations.PortOutputsCarryTheResult := by
  refine ⟨fun id payload hlen => ⟨rfl, ?_, fun i _ => extractLsb'_packLanes (n := 8) hlen i⟩, fun e he => ?_,
    fun bytes hlen => ⟨?_, fun k _ => extractLsb'_packLanes (n := 26) hlen k⟩, rfl, rfl⟩
  · exact Nat.mod_eq_of_lt (by omega)
  · cases e with
    | message id payload => exact absurd rfl (he id payload)
    | none | error => exact ⟨rfl, rfl, rfl⟩
  · exact Nat.mod_eq_of_lt (by omega)

@[simp] theorem payloadLanes_length (len : BitVec 4) (data : BitVec 64) :
    (payloadLanes len data).length = len.toNat := by
  simp [payloadLanes]

/-- Settles O52: a payload has a byte for each lane below its length, and the encoder refuses more than 8. -/
theorem portRequestCarriesThePayload : Obligations.PortRequestCarriesThePayload := by
  intro len data data'
  refine ⟨payloadLanes_length len data, fun i hi h8 => ?_, fun hlanes => ?_, fun hlen c id => ?_⟩
  · simp [payloadLanes, hi, h8]
  · refine List.map_congr_left fun i hi => ?_
    rw [hlanes i (List.mem_range.mp hi)]
  · refine encodeFrame_of_not_encodable (fun he => ?_) c
    have hle := he.1
    rw [payloadLanes_length] at hle
    omega

/-! ### The operations of one step -/

theorem execAll_singleton {i : Instr} {t : State} (h : exec i s = .next t) : execAll [i] s = .next t := by
  simp only [execAll, h]

theorem execAll_pair {i j : Instr} {t u : State} (hi : exec i s = .next t) (hj : exec j t = .next u) :
    execAll [i, j] s = .next u := by
  simp only [execAll, hi, hj]

/-- The encoder's operation adds its result, and touches nothing that the decoder's part relates. -/
theorem execAll_encoderOps (h : s.cfg.Legal) (p : PortIn) :
    ∃ t, execAll p.encoderOps s = .next t ∧ t.dec = s.dec ∧ t.events = s.events ∧
      t.results.map resultPorts = s.results.map resultPorts ++ (p.encoderOut s.cfg).toList := by
  cases hv : p.encValid with
  | false => exact ⟨s, by simp [PortIn.encoderOps, hv, execAll], rfl, rfl, by simp [PortIn.encoderOut, hv]⟩
  | true =>
    refine ⟨s.addResult (encodeFrame s.cfg p.reqId (payloadLanes p.reqLen p.reqData)), ?_, rfl, rfl, ?_⟩
    · rw [PortIn.encoderOps, if_pos hv]
      exact execAll_singleton (exec_encode h _ _)
    · simp [PortIn.encoderOut, hv]

/-- RESET and FEED raised together: the free order picks the state that the byte is fed to and the one that is
left; the event is the FEED's. -/
theorem portStep_both (h : c.Legal) (habs : r.abs = .ok d) (hr : p.rst = true)
    (hf : p.fdValid = true) :
    (Config.resetFirst r.turn = true ∧ ∃ r', r'.abs = .ok (feed c .waiting0 p.fdByte).1 ∧
      portStep c r p = .next (r', ⟨some (eventPorts (feed c .waiting0 p.fdByte).2), p.encoderOut c⟩)) ∨
    (Config.resetFirst r.turn = false ∧ ∃ r', r'.abs = .ok .waiting0 ∧
      portStep c r p = .next (r', ⟨some (eventPorts (feed c d p.fdByte).2), p.encoderOut c⟩)) := by
  cases hfirst : Config.resetFirst r.turn with
  | true =>
    exact .inl ⟨rfl, _, PortRegs.abs_store (feed_shape_ok DecoderState.shape_waiting0 _).1,
      portStep_of_both h hr hf (PortRegs.resetAndFeed_of_resetFirst hfirst)⟩
  | false =>
    exact .inr ⟨rfl, _, PortRegs.abs_reset,
      portStep_of_both h hr hf (PortRegs.resetAndFeed_of_feedFirst hfirst habs)⟩

/-- The decoder's operations lead to the state that the registers hold after the step, and put out what its
event ports carry; they leave the parameters and the results. -/
theorem execAll_decoderOps (h : s.cfg.Legal) (hshape : s.dec.Shape) (habs : r.abs = .ok s.dec) (p : PortIn) :
    ∃ u r' ev, execAll (p.decoderOps (Config.resetFirst r.turn)) s = .next u ∧
      portStep s.cfg r p = .next (r', ⟨ev, p.encoderOut s.cfg⟩) ∧ r'.abs = .ok u.dec ∧ u.dec.Shape ∧
      u.events.map eventPorts = s.events.map eventPorts ++ ev.toList ∧
      u.cfg = s.cfg ∧ u.results = s.results := by
  have hfeed : (s.feed p.fdByte).dec.Shape := (feed_shape_ok hshape _).1
  cases hr : p.rst <;> cases hf : p.fdValid
  · exact ⟨s, r, none, by simp [PortIn.decoderOps, hr, hf, execAll], portStep_of_idle h hr hf, habs, hshape,
      by simp, rfl, rfl⟩
  · refine ⟨s.feed p.fdByte, _, _, ?_, portStep_of_feed h hr hf (PortRegs.feed_of_abs habs),
      PortRegs.abs_store hfeed, hfeed, by simp, rfl, rfl⟩
    simp only [PortIn.decoderOps, hr, hf, execAll_singleton (exec_feed h _)]
  · refine ⟨{ s with dec := .waiting0 }, _, none, ?_, portStep_of_reset h hr hf, PortRegs.abs_reset,
      DecoderState.shape_waiting0, by simp, rfl, rfl⟩
    simp only [PortIn.decoderOps, hr, hf, execAll_singleton (exec_reset h)]
  · obtain ⟨hfirst, r', habs', hstep⟩ | ⟨hfirst, r', habs', hstep⟩ := portStep_both h habs hr hf
    · refine ⟨State.feed { s with dec := .waiting0 } p.fdByte, r', _, ?_, hstep, habs',
        (feed_shape_ok DecoderState.shape_waiting0 _).1, ?_, rfl, rfl⟩
      · simp only [PortIn.decoderOps, hr, hf, hfirst, if_true]
        exact execAll_pair (exec_reset h) (exec_feed (s := { s with dec := .waiting0 }) h _)
      · simp
    · refine ⟨{ s.feed p.fdByte with dec := .waiting0 }, r', _, ?_, hstep, habs',
        DecoderState.shape_waiting0, ?_, rfl, rfl⟩
      · simp only [PortIn.decoderOps, hr, hf, hfirst, Bool.false_eq_true, if_false]
        exact execAll_pair (exec_feed h _) (exec_reset (s := s.feed p.fdByte) h)
      · simp

/-- Settles O55: the decoder's part and the encoder's part of a step, one after the other. -/
theorem portStepRefinesTheMachine : Obligations.PortStepRefinesTheMachine := by
  intro s r p hlegal hshape habs
  obtain ⟨u, r', ev, hdecoder, hstep, habs', hshape', hevents, hcfg, hresults⟩ :=
    execAll_decoderOps hlegal hshape habs p
  obtain ⟨t, hencoder, hdec, hevents', hresults'⟩ := execAll_encoderOps (s := u) (hcfg ▸ hlegal) p
  refine ⟨u, t, r', _, hdecoder, hencoder, hstep, ?_, ?_, ?_, ?_⟩
  · rw [hdec, habs']
  · rw [hdec]; exact hshape'
  · rw [hevents', hevents]
  · rw [hresults', hresults, hcfg]

/-- Settles O56: with RESET first the byte is fed to `Waiting0`, where it gives no event; with the FEED first
RESET discards what it left. -/
theorem feedBesideResetIsAccepted : Obligations.FeedBesideResetIsAccepted := by
  intro c r p d hlegal _ habs hr hf
  obtain ⟨hfirst, r', habs', hstep⟩ | ⟨hfirst, r', habs', hstep⟩ := portStep_both hlegal habs hr hf
  · refine ⟨r', _, hstep, ?_⟩
    rw [if_pos hfirst, habs', feed_waiting0]
    exact ⟨rfl, rfl⟩
  · refine ⟨r', _, hstep, ?_⟩
    rw [hfirst, if_neg Bool.false_ne_true]
    exact ⟨rfl, habs'⟩

end Sys2Proof.Machine
end

section
/-! SUPPORT. The statements about the encoder (40_encoder.md): the outcome of ENCODE by its two checks. -/

namespace Sys2Proof.Machine

variable {s : State} {id : Ident} {payload : List Byte}

/-! ### The two checks -/

/-- Any of bits 31..29 set puts an identifier at or above 2^29 (R102). -/
theorem two_pow_le_of_getLsbD {i : Nat} (hi : 29 ≤ i) (hbit : id.getLsbD i = true) : 2 ^ 29 ≤ id.toNat :=
  calc 2 ^ 29 ≤ 2 ^ i := Nat.pow_le_pow_right (by decide) hi
    _ ≤ id.toNat := Nat.ge_two_pow_of_testBit hbit

theorem encodable_of_lt (hlen : payload.length ≤ 8) (hid : id.toNat < 2 ^ 29) : Encodable id payload :=
  ⟨hlen, (topBits_eq_zero id).mpr hid⟩

theorem not_encodable_of_length (hlen : 8 < payload.length) (id : Ident) : ¬Encodable id payload :=
  fun ⟨hle, _⟩ => absurd hle (Nat.not_le.mpr hlen)

theorem not_encodable_of_two_pow_le (hid : 2 ^ 29 ≤ id.toNat) (payload : List Byte) : ¬Encodable id payload :=
  fun ⟨_, htop⟩ => absurd ((topBits_eq_zero id).mp htop) (Nat.not_lt.mpr hid)

/-! ### The two outcomes -/

theorem exec_encode_of_encodable (h : s.cfg.Legal) (he : Encodable id payload) :
    exec (.encode id payload) s = .next (s.addResult (.ok (frame s.cfg id payload))) := by
  rw [exec_encode h, encodeFrame_of_encodable he]

theorem exec_encode_of_not_encodable (h : s.cfg.Legal) (he : ¬Encodable id payload) :
    exec (.encode id payload) s = .next (s.addResult .invalidArgument) := by
  rw [exec_encode h, encodeFrame_of_not_encodable he]

/-- Settles O20: the two clauses are `Encodable` and its negation, and the bytes written out are `frame`. -/
theorem encodeBuildsTheFrame : Obligations.EncodeBuildsTheFrame := by
  intro s id payload hlegal
  constructor
  · intro he
    exact exec_encode_of_encodable hlegal he
  · rintro (hlen | htop)
    · exact exec_encode_of_not_encodable hlegal (not_encodable_of_length hlen id)
    · exact exec_encode_of_not_encodable hlegal fun ⟨_, hzero⟩ => htop hzero

/-- Settles O21: the length alone fails the checks, and with a valid identifier both pass. -/
theorem encodeChecksThePayloadLength : Obligations.EncodeChecksThePayloadLength := by
  intro s id payload hlegal
  constructor
  · intro hlen
    exact exec_encode_of_not_encodable hlegal (not_encodable_of_length hlen id)
  · intro hlen hid
    exact ⟨_, exec_encode_of_encodable hlegal (encodable_of_lt hlen hid)⟩

/-- Settles O22: a set bit 31, 30 or 29 puts the identifier at or above 2^29, where the checks fail. -/
theorem encodeChecksTheIdentifier : Obligations.EncodeChecksTheIdentifier := by
  intro s id payload hlegal
  constructor
  · intro hbits
    have hid : 2 ^ 29 ≤ id.toNat := by
      obtain h31 | h30 | h29 := hbits
      · exact two_pow_le_of_getLsbD (by decide) h31
      · exact two_pow_le_of_getLsbD (by decide) h30
      · exact two_pow_le_of_getLsbD (by decide) h29
    exact exec_encode_of_not_encodable hlegal (not_encodable_of_two_pow_le hid payload)
  · intro hid hlen
    exact ⟨_, exec_encode_of_encodable hlegal (encodable_of_lt hlen hid)⟩

/-- Settles O23: both causes, the length alone and the identifier alone each fail the same test. -/
theorem bothCausesGiveOneInvalidArgument : Obligations.BothCausesGiveOneInvalidArgument := by
  intro s id id' payload payload' hlegal hlen hid _ _
  have hboth := exec_encode_of_not_encodable hlegal (not_encodable_of_length hlen id)
  have hlenAlone := exec_encode_of_not_encodable hlegal (not_encodable_of_length hlen id')
  have hidAlone := exec_encode_of_not_encodable hlegal (not_encodable_of_two_pow_le hid payload')
  exact ⟨hboth, hboth.trans hlenAlone.symm, hboth.trans hidAlone.symm⟩

/-- Settles O24: the one result is `encodeFrame` of the constants and the operands. -/
theorem encodeIsPure : Obligations.EncodeIsPure := by
  intro c id payload hlegal
  refine ⟨encodeFrame c id payload, ?_⟩
  rintro s rfl
  exact exec_encode hlegal id payload

end Sys2Proof.Machine
end

section
/-! SUPPORT. The operands of the decoder (41_decoder.md R130 to R132): the joined identifier, its policy, and PUSH. -/

namespace Sys2Proof.Machine

/-! ### The message -/

/-- An identifier is the sum of its four bytes, the least significant first (R42). -/
theorem toNat_eq_bytes (id : Ident) :
    id.toNat = (id.extractLsb' 0 8).toNat + 2 ^ 8 * (id.extractLsb' 8 8).toNat +
      2 ^ 16 * (id.extractLsb' 16 8).toNat + 2 ^ 24 * (id.extractLsb' 24 8).toNat := by
  have hlt := id.isLt
  simp only [BitVec.extractLsb'_toNat, Nat.shiftRight_eq_div_pow]
  omega

/-- The value that shift and OR join from four bytes (R43). -/
theorem rawId_toNat (b0 b1 b2 b3 : Byte) :
    (rawId b0 b1 b2 b3).toNat =
      b0.toNat + 2 ^ 8 * b1.toNat + 2 ^ 16 * b2.toNat + 2 ^ 24 * b3.toNat := by
  have hbytes := idLe32_rawId b0 b1 b2 b3
  simp only [idLe32, List.cons.injEq, and_true] at hbytes
  obtain ⟨h0, h1, h2, h3⟩ := hbytes
  rw [toNat_eq_bytes, h0, h1, h2, h3]

/-- Settles O16: splitting the joined identifier gives its four bytes back, which are its digits. -/
theorem messageSplitsTheBufferLittleEndian : Obligations.MessageSplitsTheBufferLittleEndian := by
  intro c b0 b1 b2 b3 payload _
  exact ⟨rawId b0 b1 b2 b3, rfl, rawId_toNat b0 b1 b2 b3, rfl⟩

/-! ### The policy -/

theorem applyPolicy_of_lt {raw : Ident} (h : raw.toNat < 2 ^ 29) (p : IdPolicy) (payload : List Byte) :
    applyPolicy p raw payload = .message raw payload := if_pos ((topBits_eq_zero raw).mpr h)

/-- With any of bits 31..29 set, the policy decides (R132). -/
theorem applyPolicy_of_le {raw : Ident} (h : 2 ^ 29 ≤ raw.toNat) (payload : List Byte) :
    applyPolicy .pass raw payload = .message raw payload ∧
      applyPolicy .mask raw payload = .message (raw &&& 0x1FFFFFFF) payload ∧
      applyPolicy .drop raw payload = .none := by
  have htop : topBits raw ≠ 0 := fun hzero => Nat.not_lt.mpr h ((topBits_eq_zero raw).mp hzero)
  exact ⟨if_neg htop, if_neg htop, if_neg htop⟩

/-- No policy changes the payload. -/
theorem applyPolicy_cases (p : IdPolicy) (raw : Ident) (payload : List Byte) :
    applyPolicy p raw payload = .none ∨ ∃ id, applyPolicy p raw payload = .message id payload := by
  by_cases h : raw.toNat < 2 ^ 29
  · exact .inr ⟨raw, applyPolicy_of_lt h p payload⟩
  · obtain ⟨hpass, hmask, hdrop⟩ := applyPolicy_of_le (Nat.not_lt.mp h) payload
    cases p with
    | pass => exact .inr ⟨_, hpass⟩
    | mask => exact .inr ⟨_, hmask⟩
    | drop => exact .inl hdrop

/-! ### PUSH -/

theorem push_of_target {d : DecoderState} (h : d.target = some (d.buf.length + 1)) (c : Config) (x : Byte) :
    push c d x = (.waiting0, message c (d.buf ++ [x])) := if_pos h.symm

theorem push_of_target_ne {d : DecoderState} (h : d.target ≠ some (d.buf.length + 1)) (c : Config)
    (x : Byte) : push c d x = (⟨.inPayload, d.buf ++ [x], d.target, false⟩, .none) := if_neg h.symm

/-- Settles O17: the policy is asked at or above 2^29 only, and PUSH completes before it is asked. -/
theorem policyActsOnlyOnTopBits : Obligations.PolicyActsOnlyOnTopBits := by
  exact ⟨fun p raw payload h => applyPolicy_of_lt h p payload, fun raw payload h => applyPolicy_of_le h payload,
    fun c d x h => push_of_target h c x⟩

/-- Settles O15: below its target a buffer of the table of R25 reaches it with the byte, or stays below. -/
theorem pushCompletesExactlyAtTheTarget : Obligations.PushCompletesExactlyAtTheTarget := by
  intro c d x t hshape hst ht
  obtain ⟨n, hn, hlo, hhi, hlt⟩ := hshape.inPayload hst
  obtain rfl : n = t := Option.some.inj (hn.symm.trans ht)
  rw [List.length_append, List.length_singleton]
  refine ⟨fun hlen => ⟨push_of_target (by rw [ht, hlen]) c x, by omega⟩, fun hlen => ⟨?_, by omega⟩, by omega⟩
  rw [push_of_target_ne (fun e => hlen (Option.some.inj (e.symm.trans ht))), ht]

end Sys2Proof.Machine
end

section
/-! SUPPORT. The transitions of the decoder (41_decoder.md R121 to R129), row by row, and where a FEED speaks
(R134). -/

namespace Sys2Proof.Machine

variable {c : Config} {d : DecoderState} {s : State} {b : Byte}

/-! ### The rows -/

/-- Where R65 selects a row, the operation of the row and the FEED of the byte are its transition. -/
theorem exec_of_classify (h : s.cfg.Legal) {k : ByteClass} (hk : classify s.cfg s.dec.context b = k) :
    exec (k.row b) s = .next (s.emit (rowOf s.cfg s.dec b k)) ∧
      exec (.feed b) s = .next (s.emit (rowOf s.cfg s.dec b k)) := by
  have hfeed : s.feed b = s.emit (rowOf s.cfg s.dec b k) := by rw [State.feed, feed_eq_rowOf, hk]
  subst hk
  rw [← hfeed]
  exact ⟨exec_rowOfClass h b, exec_feed h b⟩

/-- In `ExpectLength` the class is the test of the LENGTH byte, whatever the flag (R123, R124). -/
theorem classify_expectLength {x : Context} (hst : x.st = .expectLength) (h0 : b ≠ c.frameStart) :
    classify c x b = if IsLength b then .len else .badlen := by
  rw [classify, if_neg h0, hst]

/-- Settles O6: the first test of R65 is `FRAME_START`, in every state. -/
theorem frameStartBeginsAFrameInAnyState : Obligations.FrameStartBeginsAFrameInAnyState :=
  fun _ hlegal => exec_of_classify hlegal (k := .sof) (if_pos rfl)

/-- Settles O7: row FEED.IGNORE leaves the decoder state. -/
theorem waitingDiscardsTheByte : Obligations.WaitingDiscardsTheByte := by
  intro s b hlegal hst h0
  have hclass : classify s.cfg s.dec.context b = .ignore := by
    rw [classify, if_neg h0, DecoderState.context_st, hst]
  exact exec_of_classify hlegal hclass

/-- Settles O8: a byte in 4..12 is no marker, so row FEED.LEN is selected. -/
theorem lengthByteOpensTheRegion : Obligations.LengthByteOpensTheRegion := by
  intro s b hlegal hst hlo hhi
  have hlength : IsLength b := ⟨hlo, hhi⟩
  have hclass : classify s.cfg s.dec.context b = .len := by
    rw [classify_expectLength hst (ne_markers_of_isLength hlegal hlength).1, if_pos hlength]
  exact exec_of_classify hlegal hclass

/-- Settles O9: row FEED.BADLEN is the error. -/
theorem badLengthGoesToWaiting : Obligations.BadLengthGoesToWaiting := by
  intro s b hlegal hst h0 hrange
  have hlength : ¬IsLength b := by omega
  have hclass : classify s.cfg s.dec.context b = .badlen := by
    rw [classify_expectLength hst h0, if_neg hlength]
  exact exec_of_classify hlegal hclass

/-- Settles O10: row FEED.UNESC_START pushes `FRAME_START`, and every PUSH clears the flag. -/
theorem escapedStartPushesFrameStart : Obligations.EscapedStartPushesFrameStart := by
  intro s hlegal hst hp
  have hclass : classify s.cfg s.dec.context s.cfg.escapedStart = .unescStart :=
    classify_of_selects hlegal ⟨hst, hp, rfl⟩
  obtain ⟨hrow, hfeed⟩ := exec_of_classify hlegal hclass
  exact ⟨hrow, hfeed, push_pending ..⟩

/-- Settles O11: row FEED.UNESC_ESC pushes `ESCAPE`, and every PUSH clears the flag. -/
theorem escapedEscapePushesEscape : Obligations.EscapedEscapePushesEscape := by
  intro s hlegal hst hp
  have hclass : classify s.cfg s.dec.context s.cfg.escapedEscape = .unescEsc :=
    classify_of_selects hlegal ⟨hst, hp, rfl⟩
  obtain ⟨hrow, hfeed⟩ := exec_of_classify hlegal hclass
  exact ⟨hrow, hfeed, push_pending ..⟩

/-- Settles O12: row FEED.BADESC is the error. -/
theorem badEscapeGoesToWaiting : Obligations.BadEscapeGoesToWaiting := by
  intro s b hlegal hst hp h0 h1 h2
  have hclass : classify s.cfg s.dec.context b = .badesc :=
    classify_of_selects hlegal ⟨hst, hp, h0, h1, h2⟩
  exact exec_of_classify hlegal hclass

/-- Settles O13: row FEED.ESC writes the flag only. -/
theorem escapeSetsPending : Obligations.EscapeSetsPending := by
  intro s hlegal hst hp
  have hclass : classify s.cfg s.dec.context s.cfg.escape = .esc :=
    classify_of_selects hlegal ⟨hst, hp, rfl⟩
  have hset : s.dec.setPending = ⟨.inPayload, s.dec.buf, s.dec.target, true⟩ := by rw [← hst]; rfl
  rw [← hset]
  exact exec_of_classify hlegal hclass

/-- Settles O14: row FEED.DATA pushes the byte, and every PUSH clears the flag. -/
theorem dataBytePushesItself : Obligations.DataBytePushesItself := by
  intro s b hlegal hst hp h0 h1
  have hclass : classify s.cfg s.dec.context b = .data :=
    classify_of_selects hlegal ⟨hst, hp, h0, h1⟩
  obtain ⟨hrow, hfeed⟩ := exec_of_classify hlegal hclass
  exact ⟨hrow, hfeed, push_pending ..⟩

/-! ### Where a FEED speaks -/

/-- PUSH speaks only where it completes the frame, and then by a message with the buffer's bytes after the
fourth as payload (R130, R131). -/
theorem completion_of_push_speaks {x : Byte} (hst : d.st = .inPayload) (h : (push c d x).2 ≠ .none) :
    (∃ id payload, (push c d x).2 = .message id payload ∧ payload.length = d.buf.length + 1 - 4) ∧
      d.st = .inPayload ∧ d.target = some (d.buf.length + 1) ∧ (push c d x).1 = .waiting0 := by
  obtain ⟨ht, hp⟩ | ⟨-, hp⟩ := push_cases c d x <;> rw [hp] at h ⊢
  · obtain hnone | ⟨id, hmessage⟩ := applyPolicy_cases c.idPolicy
      (rawId (cell (d.buf ++ [x]) 0) (cell (d.buf ++ [x]) 1) (cell (d.buf ++ [x]) 2) (cell (d.buf ++ [x]) 3))
      ((d.buf ++ [x]).drop 4)
    · exact absurd hnone h
    · refine ⟨⟨id, _, hmessage, ?_⟩, hst, ht, rfl⟩
      rw [List.length_drop, List.length_append, List.length_singleton]
  · exact absurd rfl h

/-- Settles O18, along the tests of R120: of the nine cases four are silent, two are errors, and three
push. -/
theorem onlyCompletionOrErrorSpeaks : Obligations.OnlyCompletionOrErrorSpeaks := by
  intro s b hlegal _
  refine ⟨s.feed b, _, exec_feed hlegal b, s.feed_events b, fun hspeaks => ?_⟩
  rw [State.feed_dec]
  rcases feed_cases s.cfg s.dec b with ⟨-, hf⟩ | ⟨-, -, hf⟩ | ⟨-, -, -, hf⟩ | ⟨h0, hst, hl, hf⟩ |
    ⟨-, hst, -, -, hf⟩ | ⟨-, hst, -, -, -, hf⟩ | ⟨h0, hst, hp, h1, h2, hf⟩ | ⟨-, -, -, -, hf⟩ |
    ⟨-, hst, -, -, hf⟩ <;> rw [hf] at hspeaks ⊢
  · exact absurd rfl hspeaks
  · exact absurd rfl hspeaks
  · exact absurd rfl hspeaks
  · exact .inl ⟨rfl, hst, h0, by omega, rfl⟩
  · exact .inr (.inr (completion_of_push_speaks hst hspeaks))
  · exact .inr (.inr (completion_of_push_speaks hst hspeaks))
  · exact .inr (.inl ⟨rfl, hst, hp, h0, h1, h2, rfl⟩)
  · exact absurd rfl hspeaks
  · exact .inr (.inr (completion_of_push_speaks hst hspeaks))

end Sys2Proof.Machine
end

section
/-! SUPPORT. Runs that no input stops (41_decoder.md R139). -/

namespace Sys2Proof.Machine

variable {s t : State} {i : Instr} {r : Request} {rest : List Request}

/-- The machine is built with legal parameters, and every pending request is one that an interface carries. -/
def State.Served (s : State) : Prop := s.cfg.Legal ∧ ∀ r ∈ s.requests, Carried r

/-- A request that an interface carries is never rejected, and what is left of its group is carried too. -/
theorem decode_of_carried (h : Carried r) (c : Config) (x : Context) :
    decode c x r = .done ∨
      ∃ i more, decode c x r = .instr i more ∧ (more = [] ∨ Carried ⟨r.format, more⟩) := by
  obtain ⟨format, bytes⟩ := r
  cases format with
  | feedByte | feedRequest | wireToken =>
    cases bytes with
    | nil => exact .inl rfl
    | cons b rest => exact .inr ⟨_, _, rfl, .inr trivial⟩
  | encodeRequest =>
    match bytes, h with
    | b0 :: b1 :: b2 :: b3 :: payload, _ => exact .inr ⟨_, _, rfl, .inl rfl⟩
  | reset =>
    obtain rfl : bytes = [] := h
    exact .inr ⟨_, _, rfl, .inl rfl⟩

theorem carried_requeue {f : Format} {more : List Byte} (hmore : more = [] ∨ Carried ⟨f, more⟩)
    (hrest : ∀ r ∈ rest, Carried r) : ∀ r ∈ requeue f more rest, Carried r := by
  unfold requeue
  split_ifs with hnil
  · exact hrest
  · exact List.forall_mem_cons.mpr ⟨hmore.resolve_left hnil, hrest⟩

/-- No operation touches the pending requests. -/
theorem exec_requests (h : exec i s = .next t) : t.requests = s.requests := by
  obtain ⟨_, _, -, he⟩ | ⟨-, he⟩ | ⟨-, -, he⟩ := exec_cases (legal_of_exec h) i <;>
    (rw [he] at h; cases h; rfl)

/-- An operation completes where the machine is served, and it stays so. -/
theorem exec_served (h : s.Served) (i : Instr) : ∃ t, exec i s = .next t ∧ t.Served := by
  obtain ⟨hlegal, hcarried⟩ := h
  obtain ⟨t, ht⟩ := exec_of_legal hlegal i
  exact ⟨t, ht, by rw [exec_cfg ht]; exact hlegal, by rw [exec_requests ht]; exact hcarried⟩

/-- A step completes where the machine is served, and it stays so. -/
theorem step_served (h : s.Served) : ∃ t, step s = .next t ∧ t.Served := by
  obtain ⟨hlegal, hcarried⟩ := h
  cases hreq : s.requests with
  | nil =>
    have hfetch : s.fetch = .idle := by simp only [State.fetch, hreq]
    exact ⟨s, by simp only [step, hfetch], hlegal, hcarried⟩
  | cons r rest =>
    rw [hreq] at hcarried
    obtain ⟨hr, hrest⟩ := List.forall_mem_cons.mp hcarried
    obtain hdec | ⟨i, more, hdec, hmore⟩ := decode_of_carried hr s.cfg s.dec.context
    · have hfetch : s.fetch = .finished rest := by simp only [State.fetch, hreq, hdec]
      exact ⟨{ s with requests := rest }, by simp only [step, hfetch], hlegal, hrest⟩
    · rw [step_of_decode hreq hdec]
      exact exec_served (s := { s with requests := requeue r.format more rest })
        ⟨hlegal, carried_requeue hmore hrest⟩ i

theorem runSteps_served (h : s.Served) (n : Nat) : ∃ t, runSteps n s = .next t := by
  induction n generalizing s with
  | zero => exact ⟨s, rfl⟩
  | succ n ih =>
    obtain ⟨u, hstep, hu⟩ := step_served h
    rw [runSteps_succ_of_step hstep]
    exact ih hu

/-- Settles O42: a step completes and leaves the machine as it asks for it, so a run of any length does. -/
theorem noInputStopsTheMachine : Obligations.NoInputStopsTheMachine :=
  fun _ n hlegal hcarried => runSteps_served ⟨hlegal, hcarried⟩ n

end Sys2Proof.Machine
end

section
/-! SUPPORT. The round trip (41_decoder.md R136, R137): the bytes of an encoded frame, fed one by one and read
token by token. -/

namespace Sys2Proof.Machine

variable {s : State} {id : Ident} {payload : List Byte}

/-! ### Fed byte by byte -/

theorem frame_ne_nil (c : Config) (id : Ident) (payload : List Byte) : frame c id payload ≠ [] :=
  List.cons_ne_nil _ _

/-- The FEEDs of a whole frame give its message on the last byte, and nothing else (R136). -/
theorem State.feedBytes_frame (h : s.cfg.Legal) (he : Encodable id payload) :
    s.feedBytes (frame s.cfg id payload) = { s with
      dec := .waiting0,
      events := s.events ++ List.replicate ((frame s.cfg id payload).length - 1) .none ++
        [.message id payload] } := by
  rw [State.feedBytes, feedAll_frame h he, silentUntilLast, List.append_assoc]

/-- Settles O46: ENCODE puts out the frame, whose group runs as the FEEDs of its bytes. -/
theorem roundTrip : Obligations.RoundTrip := by
  intro s id payload rest hlegal hid hlen
  have he : Encodable id payload := encodable_of_lt hlen hid
  have hrun := runSteps_feedGroup hlegal (frame s.cfg id payload) rest
  rw [requeue_of_ne_nil (frame_ne_nil _ _ _),
    State.feedBytes_frame (s := { s with requests := rest }) hlegal he] at hrun
  exact ⟨_, exec_encode_of_encodable hlegal he, hrun⟩

/-- Settles O48: the frame gives its message whatever state the bytes before it left. -/
theorem resynchronization : Obligations.Resynchronization := by
  intro c d before f id payload hlegal hf
  obtain ⟨he, rfl⟩ := encodeFrame_eq_ok hf
  rw [feedAll_append, feedAll_frame hlegal he, silentUntilLast, List.append_assoc]

/-! ### Read token by token -/

/-- A step with wire bytes first takes the token at their head, which feeds its bytes (R75; log 7, 8). -/
theorem step_wireToken (h : s.cfg.Legal) {i : Instr} {b : Byte} {bs more : List Byte}
    (htoken : decodeToken s.cfg s.dec.context b bs = (i, more))
    (hEncode : ∀ id payload, i ≠ .encode id payload) (hReset : i ≠ .reset) (rest : List Request) :
    step { s with requests := ⟨.wireToken, b :: bs⟩ :: rest } =
      .next { s.feedBytes (encode s.cfg i).bytes with requests := requeue .wireToken more rest } :=
  (step_of_decode (s := { s with requests := ⟨.wireToken, b :: bs⟩ :: rest }) rfl
    (decode_wireToken htoken)).trans
    (exec_eq_feedBytes (s := { s with requests := requeue .wireToken more rest }) h hEncode hReset)

/-- `FRAME_START` is read as TOK.SOF in every state (R61). -/
theorem step_tokSof (h : s.cfg.Legal) (more : List Byte) (rest : List Request) :
    step { s with requests := ⟨.wireToken, s.cfg.frameStart :: more⟩ :: rest } =
      .next { s.feed s.cfg.frameStart with requests := requeue .wireToken more rest } :=
  step_wireToken h (i := .tokSof) (if_pos rfl) nofun nofun rest

/-- In `ExpectLength` a LENGTH byte is read as TOK.LEN (R61, R76). -/
theorem step_tokLen (h : s.cfg.Legal) (hst : s.dec.st = .expectLength) {b : Byte} (hb : IsLength b)
    (more : List Byte) (rest : List Request) :
    step { s with requests := ⟨.wireToken, b :: more⟩ :: rest } =
      .next { s.feed b with requests := requeue .wireToken more rest } := by
  have hstep := step_wireToken h (decodeToken_isLength (x := s.dec.context) h hst hb more) nofun nofun rest
  simp only [encode, setWidth_setWidth_of_isLength hb, State.feedBytes_singleton] at hstep
  exact hstep

/-- Between escape sequences the escape sequence of a byte is read as the token of the byte (R62). -/
theorem step_tokenOf (h : s.cfg.Legal) (hst : s.dec.st = .inPayload) (hp : s.dec.pending = false) (x : Byte)
    (more : List Byte) (rest : List Request) :
    step { s with requests := requeue .wireToken (esc s.cfg x ++ more) rest } =
      .next { s.feedBytes (esc s.cfg x) with requests := requeue .wireToken more rest } := by
  obtain ⟨hStart, hEscape, hLit⟩ :=
    decodeToken_region (x := s.dec.context) h (hst.trans_ne (by decide)) hp more
  obtain ⟨-, he⟩ | ⟨-, -, he⟩ | ⟨h0, h1, he⟩ := esc_cases s.cfg x <;> rw [he]
  · exact step_wireToken h hStart nofun nofun rest
  · exact step_wireToken h hEscape nofun nofun rest
  · exact step_wireToken h (hLit x h0 h1) nofun nofun rest

/-- The escaped rest of a region is read in one step for each of its bytes (R62, R130). -/
theorem runSteps_escaped (h : s.cfg.Legal) {buf bs : List Byte} {n : Nat}
    (hdec : s.dec = ⟨.inPayload, buf, some n, false⟩) (hn : buf.length + bs.length = n)
    (rest : List Request) :
    runSteps bs.length { s with requests := requeue .wireToken (escaped s.cfg bs) rest } =
      .next ({ s with requests := rest }.feedBytes (escaped s.cfg bs)) := by
  induction bs generalizing s buf with
  | nil => simp [State.feedBytes_nil]
  | cons x xs ih =>
    have hst : s.dec.st = .inPayload := by rw [hdec]
    have hp : s.dec.pending = false := by rw [hdec]
    rw [List.length_cons] at hn
    rw [escaped_cons, List.length_cons, runSteps_succ_of_step (step_tokenOf h hst hp x _ rest),
      State.feedBytes_append]
    have hafter : (s.feedBytes (esc s.cfg x)).dec = (push s.cfg ⟨.inPayload, buf, some n, false⟩ x).1 := by
      rw [State.feedBytes_dec, feedAll_esc h hst hp, hdec]
    obtain ⟨ht, -⟩ | ⟨-, hpush⟩ := push_cases s.cfg ⟨.inPayload, buf, some n, false⟩ x
    · have hlen : n = buf.length + 1 := Option.some.inj ht
      have hlast : xs = [] := List.eq_nil_of_length_eq_zero (by omega)
      rw [hlast, escaped_nil, State.feedBytes_nil]
      rfl
    · rw [hpush] at hafter
      have hlen : (buf ++ [x]).length + xs.length = n := by
        rw [List.length_append, List.length_singleton]; omega
      exact ih (s := s.feedBytes (esc s.cfg x)) h hafter hlen

/-- The wire bytes of a frame are read in one step for the start, one for the length, and one for each byte of
the region, from any decoder state (R60, R61). -/
theorem runSteps_frameTokens (h : s.cfg.Legal) (he : Encodable id payload) (rest : List Request) :
    runSteps (6 + payload.length)
        { s with requests := ⟨.wireToken, frame s.cfg id payload⟩ :: rest } =
      .next ({ s with requests := rest }.feedBytes (frame s.cfg id payload)) := by
  have hcount : 6 + payload.length = (region id payload).length + 1 + 1 := by rw [region_length]; omega
  have hlength := isLength_lengthByte he.1
  have hopen : ((s.feed s.cfg.frameStart).feed (lengthByte payload.length)).dec =
      ⟨.inPayload, [], some (payload.length + 4), false⟩ := by
    rw [State.feed_dec, State.feed_dec, feed_frameStart, State.feed_cfg, feed_length h hlength,
      lengthByte_toNat he.1]
  rw [frame, hcount, runSteps_succ_of_step (step_tokSof h _ rest), requeue_cons,
    runSteps_succ_of_step (step_tokLen (s := s.feed s.cfg.frameStart) h (by simp) hlength _ rest),
    State.feedBytes_cons, State.feedBytes_cons]
  exact runSteps_escaped (s := (s.feed s.cfg.frameStart).feed (lengthByte payload.length)) h hopen
    (by rw [region_length, List.length_nil]; omega) rest

/-- Settles O47: the tokens feed the bytes of the frame, which give its message. -/
theorem roundTripByTokens : Obligations.RoundTripByTokens := by
  intro s id payload rest hlegal he
  rw [runSteps_frameTokens hlegal he,
    State.feedBytes_frame (s := { s with requests := rest }) hlegal he]

end Sys2Proof.Machine
end

section
/-! SUPPORT. The decoder's errors (60_exceptions.md R166), and the steps that perform no operation (R170,
30_encoding.md R75). -/

namespace Sys2Proof.Machine

variable {c : Config} {d : DecoderState} {s : State} {rest : List Request}

/-! ### Errors -/

/-- An error comes only from the rows FEED.BADLEN and FEED.BADESC, which lie outside `Waiting` and go to
`Waiting0` (R124, R127): the other rows are silent or push, and PUSH puts out no error. -/
theorem feed_error {b : Byte} {e : ProtocolError} (h : (feed c d b).2 = .error e) :
    d.st ≠ .waiting ∧ (feed c d b).1 = .waiting0 := by
  have hpush : ∀ x, (push c d x).2 ≠ .error e := fun x hx => by
    obtain hp | ⟨_, _, hp⟩ := push_event c d x <;> cases hp.symm.trans hx
  rcases feed_cases c d b with ⟨-, hf⟩ | ⟨-, -, hf⟩ | ⟨-, -, -, hf⟩ | ⟨-, hst, -, hf⟩ |
    ⟨-, -, -, -, hf⟩ | ⟨-, -, -, -, -, hf⟩ | ⟨-, hst, -, -, -, hf⟩ | ⟨-, -, -, -, hf⟩ |
    ⟨-, -, -, -, hf⟩ <;> rw [hf] at h ⊢
  · cases h
  · cases h
  · cases h
  · exact ⟨hst.trans_ne (by decide), rfl⟩
  · exact absurd h (hpush _)
  · exact absurd h (hpush _)
  · exact ⟨hst.trans_ne (by decide), rfl⟩
  · cases h
  · exact absurd h (hpush _)

/-- In `Waiting` a byte other than `FRAME_START` is discarded without notice (R122). -/
theorem feed_waiting (hst : d.st = .waiting) {b : Byte} (h0 : b ≠ c.frameStart) :
    feed c d b = (d, .none) := by
  rw [feed, if_neg h0, hst]

/-- In `Waiting` bytes without `FRAME_START` are discarded without notice (R122). -/
theorem feedAll_waiting (hst : d.st = .waiting) {bs : List Byte} (h0 : c.frameStart ∉ bs) :
    feedAll c d bs = (d, List.replicate bs.length .none) := by
  induction bs with
  | nil => rfl
  | cons b bs ih =>
    obtain ⟨hb, hbs⟩ := not_or.mp (List.mem_cons.not.mp h0)
    rw [feedAll_cons, feed_waiting hst (Ne.symm hb), ih hbs, List.length_cons, List.replicate_succ]

/-- Settles O44: the event of the operation is the event of its FEED, which leaves `Waiting0` behind it. -/
theorem errorsNeedAFrameStartBetween : Obligations.ErrorsNeedAFrameStartBetween := by
  intro s t b e hexec hevents
  rw [exec_feed (legal_of_exec hexec)] at hexec
  obtain rfl := Host.Outcome.next.inj hexec
  have herror : (feed s.cfg s.dec b).2 = .error e := by
    rw [State.feed_events] at hevents
    exact List.singleton_inj.mp (List.append_cancel_left hevents)
  obtain ⟨hst, hwaiting⟩ := feed_error herror
  rw [State.feed_dec, hwaiting]
  exact ⟨hst, rfl, fun bs h0 => feedAll_waiting rfl h0⟩

/-! ### Steps without an operation -/

theorem step_of_no_requests (hreq : s.requests = []) : step s = .next s := by
  have hfetch : s.fetch = .idle := by simp only [State.fetch, hreq]
  simp only [step, hfetch]

theorem step_of_decode_done {r : Request} (hreq : s.requests = r :: rest)
    (hdec : decode s.cfg s.dec.context r = .done) : step s = .next { s with requests := rest } := by
  have hfetch : s.fetch = .finished rest := by simp only [State.fetch, hreq, hdec]
  simp only [step, hfetch]

theorem step_of_decode_rejected {r : Request} {e : DecodeError} (hreq : s.requests = r :: rest)
    (hdec : decode s.cfg s.dec.context r = .rejected e) : step s = .refused (.badRequest e) := by
  have hfetch : s.fetch = .bad e := by simp only [State.fetch, hreq, hdec]
  simp only [step, hfetch]

/-- Each format of fed bytes reads an empty group as finished (R75). -/
theorem decode_emptyGroup {f : Format} (hf : f ∈ [Format.feedByte, .feedRequest, .wireToken]) (c : Config)
    (x : Context) : decode c x ⟨f, []⟩ = .done := by
  simp only [List.mem_cons, List.not_mem_nil, or_false] at hf
  obtain rfl | rfl | rfl := hf <;> rfl

/-- An ENCODE request holds at least its identifier's four bytes (log 9). -/
theorem decode_encode_short {bs : List Byte} (hlen : bs.length < 4) (c : Config) (x : Context) :
    decode c x ⟨.encodeRequest, bs⟩ = .rejected .encodeWithoutIdentifier := by
  match bs, hlen with
  | [], _ | [_], _ | [_, _], _ | [_, _, _], _ => rfl

/-- Settles O38: what reading the requests gives decides the step. -/
theorem stepWithoutAnOperation : Obligations.StepWithoutAnOperation :=
  ⟨fun _ hreq => step_of_no_requests hreq,
    fun s _ _ hf hreq => step_of_decode_done hreq (decode_emptyGroup hf s.cfg s.dec.context),
    fun s _ _ hlen hreq => step_of_decode_rejected hreq (decode_encode_short hlen s.cfg s.dec.context),
    fun _ _ _ _ hreq => step_of_decode_rejected hreq rfl⟩

end Sys2Proof.Machine
end

section
/-! SUPPORT. RESET, and bytes outside a frame (70_reset_and_hazards.md R180, R187). -/

namespace Sys2Proof.Machine

/-- Settles O43: a group runs as the FEEDs of its bytes, and in `Waiting` these leave the decoder state. -/
theorem bytesOutsideAFrameAreDiscarded : Obligations.BytesOutsideAFrameAreDiscarded := by
  intro s bs rest hlegal hst h0 hreq hne
  have hrun := runSteps_feedGroup hlegal bs rest
  rw [requeue_of_ne_nil hne, ← hreq] at hrun
  rw [hrun, State.feedBytes, feedAll_waiting hst h0]

/-- Settles O2: RESET leaves `Waiting0`, which discards a substitute, as no substitute is `FRAME_START`
(K-e of R8). -/
theorem resetDiscardsTheFrameSilently : Obligations.ResetDiscardsTheFrameSilently := by
  intro s hlegal
  have ⟨_, _, _, _, hStart, hEscape⟩ := hlegal
  have hignore {b : Byte} (h0 : b ≠ s.cfg.frameStart) :=
    (waitingDiscardsTheByte { s with dec := .waiting0 } b hlegal rfl h0).2
  refine ⟨exec_reset hlegal, fun b hb => ?_⟩
  obtain rfl | rfl := List.mem_pair.mp hb
  · exact hignore hStart
  · exact hignore hEscape

end Sys2Proof.Machine
end
